-- ==== Sys2Proof/Word.lean ====
section
/-! DEFINITION. The word types of the FXC (00_scope.md R5, R6). -/

namespace Sys2Proof

/-- A 64-bit register or address (00_scope.md R5: `XLEN`, `ALEN`). -/
abbrev Word := BitVec 64

/-- A command word (00_scope.md R5: `ILEN`; 30_encoding.md R70). -/
abbrev Cmd := BitVec 32

/-- One byte of memory or of text (20_memory.md R50, 43_debug_render.md R120). -/
abbrev Byte := BitVec 8

end Sys2Proof
end

