-- ==== Sys2Proof/Config.lean ====
section
/-! DEFINITION. The implementation parameters of 00_scope.md R5. -/

namespace Sys2Proof

/-- `FRAC_DIGITS`: decimal fraction digits of a rendered value (R5, U7). -/
def Config.fracDigits : Nat := 21

/-- `NAME_LEN`: columns of the name field (R5, R122). -/
def Config.nameCols : Nat := 16

/-- `TAG_COLS`: columns of the format tag (R5, R123). -/
def Config.tagCols : Nat := 3

/-- `VALUE_COLS`: columns of the value field (R5, R125). -/
def Config.valueCols : Nat := 42

/-- `INDEX_COLS`: columns of the index field (R5, R125). -/
def Config.indexCols : Nat := 20

/-- `TERM_LINE`: the bytes `#END` and LF (R5, R127). -/
def Config.termLine : List Byte := [0x23, 0x45, 0x4E, 0x44, 0x0A]

/-- `FXC_BASE`: the bus address of the host port, OPEN in R5 and used by no rule. A free value:
nothing constrains it (log 13). -/
opaque Config.fxcBase : Nat

end Sys2Proof
end

