-- ==== Sys2Proof/Syntax.lean ====
section
/-! DEFINITION. The commands of the FXC, one constructor per row of spec/opcode_table.json
(30_encoding.md R74). -/

namespace Sys2Proof

/-- The four word widths W (00_scope.md R5 `WIDTHS`, 30_encoding.md R72). -/
inductive Width where
  | w8 | w16 | w32 | w64
deriving DecidableEq, Repr

/-- `Wof(ws)` of 30_encoding.md R72, on the decoded width. -/
def Width.bits : Width → Nat
  | .w8 => 8
  | .w16 => 16
  | .w32 => 32
  | .w64 => 64

/-- The element size `W/8` in bytes (20_memory.md R53). -/
def Width.bytes (w : Width) : Nat := w.bits / 8

/-- A Q-format as a command word carries it: a width and the field `n` (30_encoding.md R72, R73).
It need not be valid: validity is a check of decode (R76). -/
structure QFormat where
  w : Width
  n : BitVec 6
deriving DecidableEq, Repr

/-- The fractional-bit count N, used as it stands (30_encoding.md R73). -/
def QFormat.frac (f : QFormat) : Nat := f.n.toNat

/-- The word width W of the format. -/
def QFormat.bits (f : QFormat) : Nat := f.w.bits

/-- The general registers (10_state.md R21). -/
inductive Reg where
  | x0 | x1 | x2 | x3 | x4 | x5 | x6 | x7
deriving DecidableEq, Repr

/-- The ten commands (30_encoding.md R74, R75); register operands in the order of R79,
destination first, then sources in field order. -/
inductive Instr where
  /-- `scale.W.N xd` -/
  | scale (f : QFormat) (rd : Reg)
  /-- `fixmax.W.N xd` -/
  | fixmax (f : QFormat) (rd : Reg)
  /-- `fixmin.W.N xd` -/
  | fixmin (f : QFormat) (rd : Reg)
  /-- `fltmax.W.N xd` -/
  | fltmax (f : QFormat) (rd : Reg)
  /-- `fltmin.W.N xd` -/
  | fltmin (f : QFormat) (rd : Reg)
  /-- `tofix.W.N xd, xs` -/
  | tofix (f : QFormat) (rd rs1 : Reg)
  /-- `toflt.W.N xd, xs` -/
  | toflt (f : QFormat) (rd rs1 : Reg)
  /-- `rval.W.N xs` -/
  | rval (f : QFormat) (rs1 : Reg)
  /-- `relt.W.N xb, xi` -/
  | relt (f : QFormat) (rs1 rs2 : Reg)
  /-- `rrng.W.N xb, xs, xe` -/
  | rrng (f : QFormat) (rs1 rs2 rs3 : Reg)
deriving DecidableEq, Repr

/-- The format every command carries (30_encoding.md R75: "`ws` and `n` are used by all ten
operations"). -/
def Instr.fmt : Instr → QFormat
  | .scale f _ => f
  | .fixmax f _ => f
  | .fixmin f _ => f
  | .fltmax f _ => f
  | .fltmin f _ => f
  | .tofix f _ _ => f
  | .toflt f _ _ => f
  | .rval f _ => f
  | .relt f _ _ => f
  | .rrng f _ _ _ => f

end Sys2Proof
end

