-- ==== Sys2Proof/Machine/State.lean ====
section
/-! DEFINITION. Everything the spec gives the FXC and its environment, as plain data
(10_state.md R20 to R41), and the state right after reset (R40). -/

namespace Sys2Proof.Machine

/-- No step of this machine stops with a fault. Every fault of the spec is an exception whose entry
60_exceptions.md R149 describes, so taking it is a next state (log 17). No constructor: nobody
raises one. -/
inductive Fault
deriving DecidableEq, Repr

/-- Why a step has no meaning. -/
inductive Refusal where
  /-- An instruction whose arm of `exec` has no meaning yet; raised by such an arm only, and there
  is none. Safe: the machine stops. -/
  | notModelled (mnemonic : String)
deriving DecidableEq, Repr

/-- The fault causes of 60_exceptions.md R141. -/
inductive FaultCause where
  | illegalCommand | illegalFormat | rangeOrder | accessMisaligned | accessFault
deriving DecidableEq, Repr

/-- Where a running command stands (10_state.md R34, R35; 43_debug_render.md R128 to R130). -/
inductive Phase where
  /-- `RELT`: the one element is to be read next (R129) -/
  | elementOne
  /-- `RRNG`: the element step for `IDX` is next (R130) -/
  | elementRange
  /-- `RRNG`: the line for `IDX` is being handed to the sink (R130) -/
  | rangeLine
  /-- the last bytes of the command are being handed to the sink: the line of `RVAL` or `RELT`, or
  the terminator of `RRNG` -/
  | finalText
deriving DecidableEq, Repr

/-- The three run states of 10_state.md R34; `STATUS` is read from it (R27). -/
inductive Run where
  | idle
  | busy (p : Phase)
  | faulted
deriving DecidableEq, Repr

/-- The eight general registers (10_state.md R21). -/
structure RegFile where
  x0 : Word
  x1 : Word
  x2 : Word
  x3 : Word
  x4 : Word
  x5 : Word
  x6 : Word
  x7 : Word
deriving DecidableEq, Repr

/-- A request on the memory port (10_state.md R39, 20_memory.md R56, R57): address and size. -/
structure MemRequest where
  addr : Nat
  size : Nat
deriving DecidableEq, Repr

/-- A transfer on the host port (10_state.md R31 to R33, R39). -/
inductive Transfer where
  | read (num : BitVec 5)
  | write (num : BitVec 5) (data : Word)
deriving DecidableEq, Repr

/-- Which agent moves next (10_state.md R20). -/
inductive Move where
  /-- the core takes one step of a running command -/
  | core
  /-- the host presents its next transfer -/
  | host
  /-- an edge with `rst` high (70_reset_and_hazards.md R170) -/
  | reset
  /-- another agent of the platform changes one byte of the data memory, or unmaps it
  (20_memory.md R61, R58) -/
  | poke (addr : Word) (b : Option Byte)
deriving DecidableEq, Repr

/-- The FXC and its environment. -/
structure State where
  /-- `x0`..`x7` (R21) -/
  x : RegFile
  /-- `NAME0`: bytes 0 to 7 of `NAME` (R26) -/
  name0 : Word
  /-- `NAME1`: bytes 8 to 15 of `NAME` (R26) -/
  name1 : Word
  /-- the run state, read as `STATUS` (R27, R34) -/
  run : Run
  /-- `CAUSE` (R28) -/
  cause : Word
  /-- `FINFO` (R29) -/
  finfo : Word
  /-- `FADDR` (R30) -/
  faddr : Word
  /-- the word of the command in flight (R40, 60_exceptions.md R149) -/
  cmd : Cmd
  /-- hidden `FMT` (R35) -/
  fmt : QFormat
  /-- hidden `BASE` (R35) -/
  base : Word
  /-- hidden `STOP` (R35) -/
  stop : Word
  /-- hidden `IDX` (R35) -/
  idx : Word
  /-- bytes of the running `TextEmit` not yet handed to the sink (R36, R171, R172) -/
  txq : List Byte
  /-- `TXT`: every byte handed to the sink, oldest first (R36) -/
  txt : List Byte
  /-- the data memory `Mem` (20_memory.md R50): the mapped bytes, addresses strictly rising -/
  mem : List Host.Cell
  /-- the requests made on the memory port, oldest first (20_memory.md R56, R57) -/
  reads : List MemRequest
  /-- the transfers the host still wants to make, next first (R32, R33) -/
  host : List Transfer
  /-- the first of them has been presented and held off (R32, R33) -/
  held : Bool
  /-- the answers given to host reads, oldest first (R32) -/
  rdata : List (BitVec 5 × Word)
  /-- which agents move next; when empty, the core if BUSY, else the host (log 3) -/
  sched : List Move
deriving DecidableEq, Repr

/-- The machine right after reset (R40, 70_reset_and_hazards.md R171). The hidden registers, whose
reset value R40 leaves unspecified, hold zero (log 1). Nothing is mapped, queued or scheduled:
memory, host transfers and moves come from outside (log 2, log 11). -/
def State.reset : State where
  x := ⟨0, 0, 0, 0, 0, 0, 0, 0⟩
  name0 := 0
  name1 := 0
  run := .idle
  cause := 0
  finfo := 0
  faddr := 0
  cmd := 0
  fmt := ⟨.w8, 0⟩
  base := 0
  stop := 0
  idx := 0
  txq := []
  txt := []
  mem := []
  reads := []
  host := []
  held := false
  rdata := []
  sched := []

end Sys2Proof.Machine
end

