-- ==== Sys2Proof/Machine/Ops.lean ====
section
/-! DEFINITION. The named operations over registers, memory and the run state: register read and
write, little-endian memory reads, fault entry (60_exceptions.md R149), leaving the FAULTED state
(reset, 70_reset_and_hazards.md R171), and the updates the render commands make. -/

namespace Sys2Proof.Machine

/-! ### General registers (10_state.md R21) -/

/-- `x[i]` -/
def RegFile.get (x : RegFile) : Reg → Word
  | .x0 => x.x0
  | .x1 => x.x1
  | .x2 => x.x2
  | .x3 => x.x3
  | .x4 => x.x4
  | .x5 => x.x5
  | .x6 => x.x6
  | .x7 => x.x7

/-- `x[i] <- v`; no register is hardwired. -/
def RegFile.set (x : RegFile) (r : Reg) (v : Word) : RegFile :=
  match r with
  | .x0 => { x with x0 := v }
  | .x1 => { x with x1 := v }
  | .x2 => { x with x2 := v }
  | .x3 => { x with x3 := v }
  | .x4 => { x with x4 := v }
  | .x5 => { x with x5 := v }
  | .x6 => { x with x6 := v }
  | .x7 => { x with x7 := v }

/-- `x[r]` of a state. -/
def State.getReg (s : State) (r : Reg) : Word := s.x.get r

/-- `x[r] <- v` and nothing else (10_state.md R25). -/
def State.setReg (s : State) (r : Reg) (v : Word) : State := { s with x := s.x.set r v }

/-! ### Data memory (20_memory.md R50, R52, R56) -/

/-- What an address not listed reads as: it is outside the domain of `Mem`, unmapped (R50). -/
def unlisted : Option Byte := none

/-- `Mem` at an address. -/
def memByte : List Host.Cell → Nat → Option Byte
  | [], _ => unlisted
  | (a, b) :: m, k => if a = k then some b else memByte m k

/-- A platform agent stores a byte (R58, R61); the list stays sorted. -/
def memSet : List Host.Cell → Nat → Byte → List Host.Cell
  | [], k, v => [(k, v)]
  | (a, b) :: m, k, v =>
    if k < a then (k, v) :: (a, b) :: m
    else if k = a then (k, v) :: m
    else (a, b) :: memSet m k v

/-- A platform agent unmaps a byte (R56: an erroring address is an unmapped one). -/
def memUnmap : List Host.Cell → Nat → List Host.Cell
  | [], _ => []
  | (a, b) :: m, k => if a = k then memUnmap m k else (a, b) :: memUnmap m k

/-- A platform agent changes one byte (R61). -/
def memPoke (m : List Host.Cell) (a : Word) (b : Option Byte) : List Host.Cell :=
  match b with
  | some v => memSet m a.toNat v
  | none => memUnmap m a.toNat

/-- The canonical form: addresses strictly rising, all below 2^64 (R50). An unlisted address is
unmapped, so no entry equals what an unlisted address reads as. -/
def Memory.wf (m : List Host.Cell) : Bool :=
  decide (m.Pairwise (fun p q => p.1 < q.1)) && m.all (fun p => decide (p.1 < 2 ^ 64))

/-- `MemRead(addr, n)`: the little-endian value of `n` bytes (R52), or none if any byte is unmapped
(R56). -/
def memRead (m : List Host.Cell) (addr : Nat) : Nat → Option Nat
  | 0 => some 0
  | n + 1 =>
    match memByte m addr, memRead m (addr + 1) n with
    | some b, some r => some (b.toNat + 256 * r)
    | _, _ => none

/-- `EA(base, i, W) = base + i × (W/8)`, in unbounded integers (R53). -/
def elementAddr (base idx : Word) (w : Width) : Nat := base.toNat + idx.toNat * w.bytes

/-! ### Faults (60_exceptions.md R141, R149) -/

/-- The code of a cause (R141). -/
def faultCode : FaultCause → Word
  | .illegalCommand => 1
  | .illegalFormat => 2
  | .rangeOrder => 3
  | .accessMisaligned => 4
  | .accessFault => 5

/-- `FADDR` after a fault: the address for the two access causes, 0 otherwise (R149). -/
def faultAddr : FaultCause → Word → Word
  | .illegalCommand, _ => 0
  | .illegalFormat, _ => 0
  | .rangeOrder, _ => 0
  | .accessMisaligned, a => a
  | .accessFault, a => a

/-- Fault entry: `raise F(info)` during the command whose word is latched (R149). Nothing else
changes. -/
def State.raise (s : State) (f : FaultCause) (info : Word) : State :=
  { s with
    cause := faultCode f
    finfo := s.cmd.setWidth 64
    faddr := faultAddr f info
    run := .faulted }

/-! ### Reset (70_reset_and_hazards.md R170 to R172), the only way out of FAULTED (R151) -/

/-- The host's transfers after reset: one held off by a FAULTED FXC is never accepted
(10_state.md R32, R33; log 6). -/
def hostAfterReset (s : State) : List Transfer :=
  if s.held && decide (s.run = .faulted) then s.host.tail else s.host

/-- An edge with `rst` high (R171, R172): all of the FXC's own state as after reset, the command in
flight and its bytes not yet handed over gone. `TXT`, memory and the histories are the
environment's and stay. -/
def State.applyReset (s : State) : State :=
  { State.reset with
    txt := s.txt
    mem := s.mem
    reads := s.reads
    host := hostAfterReset s
    rdata := s.rdata
    sched := s.sched }

/-! ### Acceptance, completion and text -/

/-- The word of an accepted command is latched (10_state.md R33, R40). -/
def State.latch (s : State) (c : Cmd) : State := { s with cmd := c }

/-- A command completes: to IDLE (10_state.md R34). What `FMT`, `BASE`, `STOP` and `IDX` hold from
then on is unspecified (R35); that they keep the values of the command is the model's choice
(log 22). -/
def State.complete (s : State) : State := { s with run := .idle }

/-- `TextEmit(bytes)` begins (10_state.md R36): the bytes wait for the sink and the FXC is BUSY. -/
def State.startText (s : State) (bytes : List Byte) (p : Phase) : State :=
  { s with txq := bytes, run := .busy p }

/-- One byte is handed to the sink (10_state.md R36, 20_memory.md R66). -/
def State.handByte (s : State) (b : Byte) (rest : List Byte) : State :=
  { s with txt := s.txt ++ [b], txq := rest }

/-- Acceptance of `RELT`: format, base and index are latched (10_state.md R35,
43_debug_render.md R129). -/
def State.loadElement (s : State) (f : QFormat) (base idx : Word) : State :=
  { s with fmt := f, base := base, idx := idx, run := .busy .elementOne }

/-- Acceptance of `RRNG`: format, base, stop and start are latched (10_state.md R35,
43_debug_render.md R130). -/
def State.loadRange (s : State) (f : QFormat) (base start stop : Word) : State :=
  { s with fmt := f, base := base, stop := stop, idx := start, run := .busy .elementRange }

/-- `IDX = IDX + 1; goto loop` (43_debug_render.md R130). -/
def State.nextIndex (s : State) : State := { s with idx := s.idx + 1, run := .busy .elementRange }

/-- One request on the memory port (20_memory.md R56). -/
def State.logRead (s : State) (addr size : Nat) : State :=
  { s with reads := s.reads ++ [⟨addr, size⟩] }

/-! ### Host port and schedule -/

/-- `NAME0 <- v` (10_state.md R26). -/
def State.setName0 (s : State) (v : Word) : State := { s with name0 := v }

/-- `NAME1 <- v` (10_state.md R26). -/
def State.setName1 (s : State) (v : Word) : State := { s with name1 := v }

/-- The first transfer has completed (10_state.md R39). -/
def State.setHost (s : State) (rest : List Transfer) : State := { s with host := rest, held := false }

/-- The first transfer is held off (10_state.md R32). -/
def State.hold (s : State) : State := { s with held := true }

/-- A host read is answered (10_state.md R32). -/
def State.answer (s : State) (n : BitVec 5) (v : Word) : State :=
  { s with rdata := s.rdata ++ [(n, v)] }

/-- The moves still to come. -/
def State.setSched (s : State) (ms : List Move) : State := { s with sched := ms }

/-- Another agent changes memory (20_memory.md R61). -/
def State.poke (s : State) (a : Word) (b : Option Byte) : State := { s with mem := memPoke s.mem a b }

end Sys2Proof.Machine
end

