-- ==== Sys2Proof/Machine/Operands.lean ====
section
/-! DEFINITION. How values lie in a general register (10_state.md R22, R23; 00_scope.md R7) and how
a binary32 is read (00_scope.md R8). -/

namespace Sys2Proof.Machine

/-! ### Reading operands -/

/-- A binary32 operand is `x[31:0]`; bits [63:32] are ignored (R22). -/
def f32Operand (v : Word) : BitVec 32 := v.setWidth 32

/-- A fixed operand of width W is `sint_W(x[W−1:0])`; bits [63:W] are ignored (R23, R7). -/
def fixOperand (w : Width) (v : Word) : Int := (v.setWidth w.bits).toInt

/-- `sint_W` of an unsigned value read from memory (R7, 20_memory.md R53). -/
def sintOf (w : Width) (u : Nat) : Int := (BitVec.ofNat w.bits u).toInt

/-! ### Writing results -/

/-- `zext_64(b)` of a binary32 result (R22). -/
def f32Result (b : BitVec 32) : Word := b.setWidth 64

/-- `sext_64(v)` of a fixed result (R23, R7). -/
def fixResult (v : Int) : Word := BitVec.ofInt 64 v

/-- `zext_64(u)` of the scale factor (R23, R7). -/
def scaleResult (u : Nat) : Word := BitVec.ofNat 64 u

/-! ### Binary32 (00_scope.md R8) -/

/-- `F32(b)`: a NaN, an infinity, or the finite value `v × 2^(−149)`. Every finite binary32 is an
integer multiple of 2^(−149), the unit of the subnormals, so this is exact (R8). -/
inductive F32 where
  | nan
  | inf (neg : Bool)
  | fin (v : Int)
deriving DecidableEq, Repr

/-- Sign bit `b[31]`. -/
def f32Sign (b : BitVec 32) : Bool := b.getLsbD 31

/-- Biased exponent `b[30:23]`. -/
def f32Exp (b : BitVec 32) : Nat := (b.extractLsb' 23 8).toNat

/-- Fraction `b[22:0]`. -/
def f32Frac (b : BitVec 32) : Nat := (b.extractLsb' 0 23).toNat

/-- The magnitude of a finite binary32 in units of 2^(−149): `m` when `e = 0`, else
`(2^23 + m) × 2^(e−150)` scaled by 2^149 (R8). -/
def f32Mag (e m : Nat) : Nat := if e = 0 then m else (2 ^ 23 + m) * 2 ^ (e - 1)

/-- `F32(b)` (R8). -/
def f32Value (b : BitVec 32) : F32 :=
  if f32Exp b = 255 then
    if f32Frac b ≠ 0 then .nan else .inf (f32Sign b)
  else
    let m : Int := f32Mag (f32Exp b) (f32Frac b)
    .fin (if f32Sign b then -m else m)

/-- `f32_of_pow2(k) = (k + 127) × 2^23` (R8). -/
def f32OfPow2 (k : Nat) : BitVec 32 := BitVec.ofNat 32 ((k + 127) * 2 ^ 23)

end Sys2Proof.Machine
end

