-- ==== Sys2Proof/Machine/Calculator.lean ====
section
/-! DEFINITION. The Scale & Limit Calculator (40_calculator.md R90 to R96). -/

namespace Sys2Proof.Machine

/-! ### The function `limits` (R90) -/

/-- `scale(W, N) = 2^N` -/
def scaleFactor (f : QFormat) : Nat := 2 ^ f.frac

/-- `fixed_max(W) = 2^(W−1) − 1` -/
def fixedMax (w : Width) : Int := 2 ^ (w.bits - 1) - 1

/-- `fixed_min(W) = −2^(W−1)` -/
def fixedMin (w : Width) : Int := -2 ^ (w.bits - 1)

/-- The exponent `k = W − 1 − N` of the float limits. -/
def limitExp (f : QFormat) : Nat := f.bits - 1 - f.frac

/-- The binary32 of `float_max(W, N) = 2^(W−1−N)` (R94). -/
def floatMaxBits (f : QFormat) : BitVec 32 := f32OfPow2 (limitExp f)

/-- The binary32 of `float_min(W, N) = −2^(W−1−N)` (R95). -/
def floatMinBits (f : QFormat) : BitVec 32 := 0x80000000 + f32OfPow2 (limitExp f)

/-! ### The five commands -/

/-- `SCALE` (R91). -/
def execScale (f : QFormat) (rd : Reg) (s : State) : Host.Outcome State Fault Refusal :=
  .next (s.setReg rd (scaleResult (scaleFactor f)))

/-- `FIXMAX` (R92). -/
def execFixmax (f : QFormat) (rd : Reg) (s : State) : Host.Outcome State Fault Refusal :=
  .next (s.setReg rd (fixResult (fixedMax f.w)))

/-- `FIXMIN` (R93). -/
def execFixmin (f : QFormat) (rd : Reg) (s : State) : Host.Outcome State Fault Refusal :=
  .next (s.setReg rd (fixResult (fixedMin f.w)))

/-- `FLTMAX` (R94). -/
def execFltmax (f : QFormat) (rd : Reg) (s : State) : Host.Outcome State Fault Refusal :=
  .next (s.setReg rd (f32Result (floatMaxBits f)))

/-- `FLTMIN` (R95). -/
def execFltmin (f : QFormat) (rd : Reg) (s : State) : Host.Outcome State Fault Refusal :=
  .next (s.setReg rd (f32Result (floatMinBits f)))

end Sys2Proof.Machine
end

