-- ==== Sys2Proof/Machine/FixedToFloat.lean ====
section
/-! DEFINITION. The Fixed→Float Converter (42_fixed_to_float.md R110 to R115). -/

namespace Sys2Proof.Machine

/-- The number of bits of a natural number: `2^(L−1) ≤ a < 2^L`, and 0 for 0 (R111). -/
def bitLength (a : Nat) : Nat := if a = 0 then 0 else Nat.log2 a + 1

/-- `RNE24` on magnitudes: nearest with at most 24 significant bits, ties to even (R111). -/
def rneMag (a : Nat) : Nat :=
  if bitLength a ≤ 24 then a
  else
    let sh := bitLength a - 24
    let q := a / 2 ^ sh
    let rem := a % 2 ^ sh
    if 2 ^ (sh - 1) < rem ∨ (rem = 2 ^ (sh - 1) ∧ q % 2 = 1) then (q + 1) * 2 ^ sh
    else q * 2 ^ sh

/-- `RNE24(v)` (R111). -/
def rne24 (v : Int) : Int := if v < 0 then -(rneMag v.natAbs : Int) else rneMag v.natAbs

/-- `M = |R| × 2^(24−L)`, an integer since `|R|` has at most 24 significant bits (R113). -/
def significand (a : Nat) : Nat :=
  if bitLength a ≤ 24 then a * 2 ^ (24 - bitLength a) else a / 2 ^ (bitLength a - 24)

/-- `f32_encode(R / 2^N)` for `R` with at most 24 significant bits (R113). -/
def encodeScaled (r : Int) (n : Nat) : BitVec 32 :=
  if r = 0 then 0
  else
    let a := r.natAbs
    let s := if r < 0 then 1 else 0
    let e := bitLength a + 126 - n
    BitVec.ofNat 32 (s * 2 ^ 31 + e * 2 ^ 23 + (significand a - 2 ^ 23))

/-- `to_float_bits(W, N, v)`: `RNE24(v)` divided exactly by `2^N` (R110, R112, R113). -/
def toFloatBits (f : QFormat) (v : Int) : BitVec 32 := encodeScaled (rne24 v) f.frac

/-- `TOFLT` (R110). -/
def execToflt (f : QFormat) (rd rs1 : Reg) (s : State) : Host.Outcome State Fault Refusal :=
  .next (s.setReg rd (f32Result (toFloatBits f (fixOperand f.w (s.getReg rs1)))))

end Sys2Proof.Machine
end

