-- ==== Sys2Proof/Machine/FloatToFixed.lean ====
section
/-! DEFINITION. The Float→Fixed Converter (41_float_to_fixed.md R100 to R107). -/

namespace Sys2Proof.Machine

/-- `float_max(W, N)` in units of 2^(−149), the unit of `F32.fin` (R90, R101). -/
def floatMaxUnits (f : QFormat) : Int := 2 ^ (limitExp f + 149)

/-- `float_min(W, N)` in the same units. -/
def floatMinUnits (f : QFormat) : Int := -2 ^ (limitExp f + 149)

/-- `NAN_POLICY`: every NaN saturates high (R105, D19). -/
def nanResult (f : QFormat) : Int := fixedMax f.w

/-- `trunc(F32(b) × 2^N)` for a finite operand `v × 2^(−149)`: the exact product, toward zero
(R102, R103). -/
def truncProduct (f : QFormat) (v : Int) : Int := (v * 2 ^ f.frac).tdiv (2 ^ 149)

/-- `to_fixed(W, N, x)` on the binary32 `b` (R100): NaN first, then `>=` against the high bound,
then `<` against the low bound, then the truncated product. -/
def toFixed (f : QFormat) (b : BitVec 32) : Int :=
  match f32Value b with
  | .nan => nanResult f
  | .inf false => fixedMax f.w
  | .inf true => fixedMin f.w
  | .fin v =>
    if floatMaxUnits f ≤ v then fixedMax f.w
    else if v < floatMinUnits f then fixedMin f.w
    else truncProduct f v

/-- `TOFIX` (R100). -/
def execTofix (f : QFormat) (rd rs1 : Reg) (s : State) : Host.Outcome State Fault Refusal :=
  .next (s.setReg rd (fixResult (toFixed f (f32Operand (s.getReg rs1)))))

end Sys2Proof.Machine
end

