-- ==== Sys2Proof/Machine/Text.lean ====
section
/-! DEFINITION. The text functions of the Debug Renderer (43_debug_render.md R120 to R127). -/

namespace Sys2Proof.Machine

/-! ### Characters (R120) -/

def chSpace : Byte := 0x20
def chMinus : Byte := 0x2D
def chDot : Byte := 0x2E
def chEquals : Byte := 0x3D
def chQ : Byte := 0x51
def chOpen : Byte := 0x5B
def chClose : Byte := 0x5D
def chLF : Byte := 0x0A

/-- The digit `d` (0 to 9) in ASCII. -/
def chDigit (d : Nat) : Byte := BitVec.ofNat 8 (0x30 + d)

/-! ### Numbers and padding (R121) -/

/-- The decimal digits of `u`, most significant first, no leading zeros; `fuel` bounds their
number. -/
def decDigits : Nat → Nat → List Nat
  | 0, _ => []
  | fuel + 1, u => if u < 10 then [u] else decDigits fuel (u / 10) ++ [u % 10]

/-- `DecU(u)` (R121). A number has at most as many decimal digits as bits, and 0 has one. -/
def decU (u : Nat) : List Byte := (decDigits (Nat.log2 u + 1) u).map chDigit

/-- The last `k` decimal digits of `u`, preceded by zeros to exactly `k` digits (R124). -/
def fixedDigits : Nat → Nat → List Nat
  | 0, _ => []
  | k + 1, u => fixedDigits k (u / 10) ++ [u % 10]

/-- `PadLeft(s, c)` (R121). -/
def padLeft (s : List Byte) (c : Nat) : List Byte := List.replicate (c - s.length) chSpace ++ s

/-- `PadRight(s, c)` (R121). -/
def padRight (s : List Byte) (c : Nat) : List Byte := s ++ List.replicate (c - s.length) chSpace

/-! ### Fields (R122 to R125) -/

/-- Byte `k` of a name half is bits [8k+7 : 8k] (10_state.md R26). -/
def wordBytes (v : Word) : List Byte := (List.range 8).map (fun k => v.extractLsb' (8 * k) 8)

/-- The name string: the bytes of `NAME` before its first zero byte, at most 16
(10_state.md R26). -/
def nameString (name0 name1 : Word) : List Byte :=
  (wordBytes name0 ++ wordBytes name1).takeWhile (fun b => b != 0)

/-- `NameField(NAME)` (R122). -/
def nameField (name0 name1 : Word) : List Byte := padRight (nameString name0 name1) Config.nameCols

/-- `TagField(N)` (R123). -/
def tagField (n : Nat) : List Byte := padRight (chQ :: decU n) Config.tagCols

/-- The quotient `num / den` rounded to nearest, ties to even (R124, D23). -/
def divNearestEven (num den : Nat) : Nat :=
  let q := num / den
  let rem := num % den
  if den < 2 * rem ∨ (2 * rem = den ∧ q % 2 = 1) then q + 1 else q

/-- `Dec21` of the finite value `v × 2^(−149)` (R124). -/
def dec21 (v : Int) : List Byte :=
  let q := divNearestEven (v.natAbs * 10 ^ Config.fracDigits) (2 ^ 149)
  let ip := q / 10 ^ Config.fracDigits
  let fp := q % 10 ^ Config.fracDigits
  (if v < 0 then [chMinus] else []) ++ decU ip ++ [chDot]
    ++ (fixedDigits Config.fracDigits fp).map chDigit

/-- `Dec21(b)` (R124), defined there for finite `b`. The renderer applies it to results of
`to_float` only, which are finite (R113); on the others it is empty and never used (log 9). -/
def dec21Bits (b : BitVec 32) : List Byte :=
  match f32Value b with
  | .fin v => dec21 v
  | .nan => []
  | .inf _ => []

/-- `ValueField(b)` (R125). -/
def valueField (b : BitVec 32) : List Byte := padLeft (dec21Bits b) Config.valueCols

/-- `IndexField(i)` (R125). -/
def indexField (i : Word) : List Byte := padLeft (decU i.toNat) Config.indexCols

/-! ### Lines (R126, R127) -/

/-- `ValueLine(W, N, NAME, v)`, 66 bytes (R126). -/
def valueLine (f : QFormat) (name0 name1 : Word) (v : Int) : List Byte :=
  nameField name0 name1 ++ [chSpace] ++ tagField f.frac ++ [chSpace, chEquals, chSpace]
    ++ valueField (toFloatBits f v) ++ [chLF]

/-- `ElementLine(W, N, NAME, i, v)`, 89 bytes (R126). -/
def elementLine (f : QFormat) (name0 name1 : Word) (i : Word) (v : Int) : List Byte :=
  nameField name0 name1 ++ [chSpace] ++ tagField f.frac ++ [chSpace, chOpen] ++ indexField i
    ++ [chClose, chSpace, chEquals, chSpace] ++ valueField (toFloatBits f v) ++ [chLF]

/-- `TermLine` (R127). -/
def termLine : List Byte := Config.termLine

end Sys2Proof.Machine
end

