-- ==== Sys2Proof/Machine/Render.lean ====
section
/-! DEFINITION. The three render commands and the steps of the core while one runs
(43_debug_render.md R128 to R132, 10_state.md R34 to R36). -/

namespace Sys2Proof.Machine

/-! ### Acceptance -/

/-- `RVAL` (R128): emission of the value line begins; the command completes with its last byte. -/
def execRval (f : QFormat) (rs1 : Reg) (s : State) : Host.Outcome State Fault Refusal :=
  .next (s.startText (valueLine f s.name0 s.name1 (fixOperand f.w (s.getReg rs1))) .finalText)

/-- `RELT` (R129): the operands are latched and the element step follows. -/
def execRelt (f : QFormat) (rs1 rs2 : Reg) (s : State) : Host.Outcome State Fault Refusal :=
  .next (s.loadElement f (s.getReg rs1) (s.getReg rs2))

/-- `RRNG` (R130): the acceptance step, `RangeOrder` if start > stop (60_exceptions.md R144). -/
def execRrng (f : QFormat) (rs1 rs2 rs3 : Reg) (s : State) : Host.Outcome State Fault Refusal :=
  if (s.getReg rs3).toNat < (s.getReg rs2).toNat then .next (s.raise .rangeOrder 0)
  else .next (s.loadRange f (s.getReg rs1) (s.getReg rs2) (s.getReg rs3))

/-! ### The element step (R129, R130) -/

/-- The element step: alignment, then the top of the address space, then the read, in the order of
60_exceptions.md R148; then the line for `IDX`, after which the command goes on as `after` says. -/
def elementStep (s : State) (after : Phase) : State :=
  let ea := elementAddr s.base s.idx s.fmt.w
  let size := s.fmt.w.bytes
  if ea % size ≠ 0 then s.raise .accessMisaligned (BitVec.ofNat 64 ea)
  else if 2 ^ 64 < ea + size then s.raise .accessFault (BitVec.ofNat 64 ea)
  else
    match memRead s.mem ea size with
    | none => (s.logRead ea size).raise .accessFault (BitVec.ofNat 64 ea)
    | some u =>
      (s.logRead ea size).startText
        (elementLine s.fmt s.name0 s.name1 s.idx (sintOf s.fmt.w u)) after

/-! ### Handing bytes to the sink (10_state.md R36) -/

/-- The last byte of a `TextEmit` has been handed over: after the line of a range the loop goes on
or ends with the terminator (R130), after the last text of a command the command completes. -/
def textDone (s : State) : State :=
  match s.run with
  | .busy .rangeLine => if s.idx = s.stop then s.startText termLine .finalText else s.nextIndex
  | .busy .finalText => s.complete
  | .busy .elementOne => s
  | .busy .elementRange => s
  | .idle => s
  | .faulted => s

/-- One byte is handed over. -/
def handOver (s : State) : State :=
  match s.txq with
  | [] => textDone s
  | [b] => textDone (s.handByte b [])
  | b :: c :: rest => s.handByte b (c :: rest)

/-- One step of the core (10_state.md R20): none unless a command runs. -/
def coreStep (s : State) : State :=
  match s.run with
  | .busy .elementOne => elementStep s .finalText
  | .busy .elementRange => elementStep s .rangeLine
  | .busy .rangeLine => handOver s
  | .busy .finalText => handOver s
  | .idle => s
  | .faulted => s

end Sys2Proof.Machine
end

