-- ==== Sys2Proof/Machine/Dispatch.lean ====
section
/-! DEFINITION. The meaning of each command (30_encoding.md R74). -/

namespace Sys2Proof.Machine

def exec (i : Instr) (s : State) : Host.Outcome State Fault Refusal :=
  match i with
  | .scale f rd => Sys2Proof.Machine.execScale f rd s
  | .fixmax f rd => Sys2Proof.Machine.execFixmax f rd s
  | .fixmin f rd => Sys2Proof.Machine.execFixmin f rd s
  | .fltmax f rd => Sys2Proof.Machine.execFltmax f rd s
  | .fltmin f rd => Sys2Proof.Machine.execFltmin f rd s
  | .tofix f rd rs1 => Sys2Proof.Machine.execTofix f rd rs1 s
  | .toflt f rd rs1 => Sys2Proof.Machine.execToflt f rd rs1 s
  | .rval f rs1 => Sys2Proof.Machine.execRval f rs1 s
  | .relt f rs1 rs2 => Sys2Proof.Machine.execRelt f rs1 rs2 s
  | .rrng f rs1 rs2 rs3 => Sys2Proof.Machine.execRrng f rs1 rs2 rs3 s

end Sys2Proof.Machine
end

