-- ==== Sys2Proof/WellFormed.lean ====
section
/-! DEFINITION. Which commands are legal: the one check a decoded row still needs is its Q-format
(30_encoding.md R73, R76). The widths and the register numbers cannot be ill-formed. -/

namespace Sys2Proof

/-- The format (W, N) is valid exactly when `N ≤ W − 1` (30_encoding.md R73). -/
def QFormat.valid (f : QFormat) : Bool := decide (f.frac ≤ f.bits - 1)

/-- A legal command: a row of R75 with a valid format (30_encoding.md R75, R76). -/
def Instr.wf (i : Instr) : Bool := i.fmt.valid

end Sys2Proof
end

