-- ==== Sys2Proof/Decode.lean ====
section
/-! DEFINITION. Decoding a command word, total on all 2^32 words (30_encoding.md R71 to R77), the
encoder beside it, and the assembler's one pseudo-instruction (R79, R80). -/

namespace Sys2Proof

/-- The three outcomes of decode (30_encoding.md R76). -/
inductive Decoded where
  /-- a row of R75 with a valid format -/
  | legal (i : Instr)
  /-- step 1 of R76: no row matches -/
  | illegalCommand
  /-- step 2 of R76: `N > W − 1` -/
  | illegalFormat
deriving DecidableEq, Repr

/-! ### Fields (R71) -/

def opOf (c : Cmd) : BitVec 4 := c.extractLsb' 28 4
def zOf (c : Cmd) : BitVec 8 := c.extractLsb' 20 8
def rs3Of (c : Cmd) : BitVec 3 := c.extractLsb' 17 3
def rs2Of (c : Cmd) : BitVec 3 := c.extractLsb' 14 3
def rs1Of (c : Cmd) : BitVec 3 := c.extractLsb' 11 3
def rdOf (c : Cmd) : BitVec 3 := c.extractLsb' 8 3
def wsOf (c : Cmd) : BitVec 2 := c.extractLsb' 6 2
def nOf (c : Cmd) : BitVec 6 := c.extractLsb' 0 6

/-- The width select codes 0, 1, 2, 3 (R72). -/
def widthOfBits (b : BitVec 2) : Width :=
  match b.toNat with
  | 0 => .w8
  | 1 => .w16
  | 2 => .w32
  | _ => .w64

/-- The code of a width (R72). -/
def widthBits : Width → BitVec 2
  | .w8 => 0
  | .w16 => 1
  | .w32 => 2
  | .w64 => 3

/-- The register a 3-bit field names (R71, 10_state.md R21). -/
def regOfBits (b : BitVec 3) : Reg :=
  match b.toNat with
  | 0 => .x0
  | 1 => .x1
  | 2 => .x2
  | 3 => .x3
  | 4 => .x4
  | 5 => .x5
  | 6 => .x6
  | _ => .x7

/-- The 3-bit number of a register. -/
def regBits : Reg → BitVec 3
  | .x0 => 0
  | .x1 => 1
  | .x2 => 2
  | .x3 => 3
  | .x4 => 4
  | .x5 => 5
  | .x6 => 6
  | .x7 => 7

/-- The format fields of a word. -/
def formatOf (c : Cmd) : QFormat := ⟨widthOfBits (wsOf c), nOf c⟩

/-! ### Decode (R75, R76) -/

/-- Step 1 of R76: the row of R75 a word matches. `z` and every register field the row does not
use must be zero (R77). -/
def decodeRow (c : Cmd) : Option Instr :=
  let f := formatOf c
  let d := rdOf c
  let a := rs1Of c
  let b := rs2Of c
  let e := rs3Of c
  if zOf c ≠ 0 then none else
  match (opOf c).toNat with
  | 1 => if a = 0 ∧ b = 0 ∧ e = 0 then some (.scale f (regOfBits d)) else none
  | 2 => if a = 0 ∧ b = 0 ∧ e = 0 then some (.fixmax f (regOfBits d)) else none
  | 3 => if a = 0 ∧ b = 0 ∧ e = 0 then some (.fixmin f (regOfBits d)) else none
  | 4 => if a = 0 ∧ b = 0 ∧ e = 0 then some (.fltmax f (regOfBits d)) else none
  | 5 => if a = 0 ∧ b = 0 ∧ e = 0 then some (.fltmin f (regOfBits d)) else none
  | 6 => if b = 0 ∧ e = 0 then some (.tofix f (regOfBits d) (regOfBits a)) else none
  | 7 => if b = 0 ∧ e = 0 then some (.toflt f (regOfBits d) (regOfBits a)) else none
  | 8 => if d = 0 ∧ b = 0 ∧ e = 0 then some (.rval f (regOfBits a)) else none
  | 9 => if d = 0 ∧ e = 0 then some (.relt f (regOfBits a) (regOfBits b)) else none
  | 10 => if d = 0 then some (.rrng f (regOfBits a) (regOfBits b) (regOfBits e)) else none
  | _ => none

/-- Decode of a command word, in the order of R76. -/
def decode (c : Cmd) : Decoded :=
  match decodeRow c with
  | none => .illegalCommand
  | some i => if i.wf then .legal i else .illegalFormat

/-- The instruction the decoder reads from the table's bits: a command is one 32-bit word passed
by value (R70, 20_memory.md R64); every bit from `nbits` up is 0. -/
def decodeTableWord (nbits w : Nat) : Option Instr :=
  match decode (BitVec.ofNat 32 (w % 2 ^ nbits)) with
  | .legal i => some i
  | .illegalCommand => none
  | .illegalFormat => none

/-! ### Encode (R71, R75) -/

/-- `cmd = op×2^28 + z×2^20 + rs3×2^17 + rs2×2^14 + rs1×2^11 + rd×2^8 + ws×2^6 + n`, with `z = 0`
(R71, R75). -/
def encodeFields (op : BitVec 4) (rs3 rs2 rs1 rd : BitVec 3) (f : QFormat) : Cmd :=
  BitVec.ofNat 32 (op.toNat * 2 ^ 28 + rs3.toNat * 2 ^ 17 + rs2.toNat * 2 ^ 14
    + rs1.toNat * 2 ^ 11 + rd.toNat * 2 ^ 8 + (widthBits f.w).toNat * 2 ^ 6 + f.n.toNat)

/-- The command word of an instruction (R75). -/
def encode : Instr → Cmd
  | .scale f rd => encodeFields 1 0 0 0 (regBits rd) f
  | .fixmax f rd => encodeFields 2 0 0 0 (regBits rd) f
  | .fixmin f rd => encodeFields 3 0 0 0 (regBits rd) f
  | .fltmax f rd => encodeFields 4 0 0 0 (regBits rd) f
  | .fltmin f rd => encodeFields 5 0 0 0 (regBits rd) f
  | .tofix f rd rs1 => encodeFields 6 0 0 (regBits rs1) (regBits rd) f
  | .toflt f rd rs1 => encodeFields 7 0 0 (regBits rs1) (regBits rd) f
  | .rval f rs1 => encodeFields 8 0 0 (regBits rs1) 0 f
  | .relt f rs1 rs2 => encodeFields 9 0 (regBits rs2) (regBits rs1) 0 f
  | .rrng f rs1 rs2 rs3 => encodeFields 10 (regBits rs3) (regBits rs2) (regBits rs1) 0 f

/-! ### The `match` and `mask` columns of R75 -/

/-- One row of the table of R75. -/
structure OpcodeRow where
  matchBits : Cmd
  mask : Cmd
deriving DecidableEq, Repr

/-- The row of R75 an instruction belongs to. -/
def opcodeRow : Instr → OpcodeRow
  | .scale _ _ => ⟨0x10000000, 0xFFFFF800⟩
  | .fixmax _ _ => ⟨0x20000000, 0xFFFFF800⟩
  | .fixmin _ _ => ⟨0x30000000, 0xFFFFF800⟩
  | .fltmax _ _ => ⟨0x40000000, 0xFFFFF800⟩
  | .fltmin _ _ => ⟨0x50000000, 0xFFFFF800⟩
  | .tofix _ _ _ => ⟨0x60000000, 0xFFFFC000⟩
  | .toflt _ _ _ => ⟨0x70000000, 0xFFFFC000⟩
  | .rval _ _ => ⟨0x80000000, 0xFFFFC700⟩
  | .relt _ _ _ => ⟨0x90000000, 0xFFFE0700⟩
  | .rrng _ _ _ _ => ⟨0xA0000000, 0xFFF00700⟩

/-- The ten rows of R75, in its order. -/
def opcodeRows : List OpcodeRow :=
  [⟨0x10000000, 0xFFFFF800⟩, ⟨0x20000000, 0xFFFFF800⟩, ⟨0x30000000, 0xFFFFF800⟩,
   ⟨0x40000000, 0xFFFFF800⟩, ⟨0x50000000, 0xFFFFF800⟩, ⟨0x60000000, 0xFFFFC000⟩,
   ⟨0x70000000, 0xFFFFC000⟩, ⟨0x80000000, 0xFFFFC700⟩, ⟨0x90000000, 0xFFFE0700⟩,
   ⟨0xA0000000, 0xFFF00700⟩]

/-- "A word `cmd` selects the row with `cmd AND mask = match`" (R75). -/
def OpcodeRow.selects (r : OpcodeRow) (c : Cmd) : Bool := decide (c &&& r.mask = r.matchBits)

/-! ### The assembler (R79, R80) -/

/-- "An assembler must reject `N > W−1`" (R79). -/
def assemble (i : Instr) : Option Cmd := if i.wf then some (encode i) else none

/-- `limits.W.N xa` with `a ≤ 3` stands for five commands; `a > 3` is an assembler error (R80). -/
def limitsExpansion (f : QFormat) (a : Reg) : Option (List Instr) :=
  if (regBits a).toNat ≤ 3 then
    some [.scale f a,
      .fixmax f (regOfBits (regBits a + 1)),
      .fixmin f (regOfBits (regBits a + 2)),
      .fltmax f (regOfBits (regBits a + 3)),
      .fltmin f (regOfBits (regBits a + 4))]
  else none

end Sys2Proof
end

