-- ==== Sys2Proof/Machine/Flags.lean ====
section
/-! DEFINITION. The FXC has no condition codes (10_state.md R25). What it has are the two run-state
bits of `STATUS` (R27), the outputs that copy them (60_exceptions.md R153) and the ready signal of
the host port (R32, R33, R39), all read from the run state. -/

namespace Sys2Proof.Machine

/-- `STATUS.BUSY` (R27). -/
def busyBit : Run → Bool
  | .idle => false
  | .busy _ => true
  | .faulted => false

/-- `STATUS.FAULT` (R27). -/
def faultBit : Run → Bool
  | .idle => false
  | .busy _ => false
  | .faulted => true

/-- The 64-bit `STATUS` register: bit 0 `BUSY`, bit 1 `FAULT`, the rest zero (R27). -/
def statusWord (r : Run) : Word :=
  (0 : BitVec 62) ++ BitVec.ofBool (faultBit r) ++ BitVec.ofBool (busyBit r)

/-- Output `busy_o` (R153). -/
def State.busyO (s : State) : Bool := busyBit s.run

/-- Output `fault_o` (R153). -/
def State.faultO (s : State) : Bool := faultBit s.run

end Sys2Proof.Machine
end

