-- ==== Sys2Proof/Machine/HostPort.lean ====
section
/-! DEFINITION. The host port (10_state.md R31 to R33), decode at acceptance (30_encoding.md R76)
and whose turn it is (10_state.md R20). -/

namespace Sys2Proof.Machine

/-! ### Register numbers (R31) -/

/-- What a host register number names. -/
inductive HostReg where
  | x (r : Reg)
  | name0 | name1 | status | cause | finfo | faddr | cmd | reserved
deriving DecidableEq, Repr

/-- The table of R31. -/
def hostReg (n : BitVec 5) : HostReg :=
  match n.toNat with
  | 0 => .x .x0
  | 1 => .x .x1
  | 2 => .x .x2
  | 3 => .x .x3
  | 4 => .x .x4
  | 5 => .x .x5
  | 6 => .x .x6
  | 7 => .x .x7
  | 8 => .name0
  | 9 => .name1
  | 10 => .status
  | 11 => .cause
  | 12 => .finfo
  | 13 => .faddr
  | 16 => .cmd
  | _ => .reserved

/-- The bus address of a register number: `8n` from `FXC_BASE` (R31); no rule uses it. -/
def hostRegAddress (n : BitVec 5) : Nat := Config.fxcBase + 8 * n.toNat

/-- What a host read returns (R31, R32): the current value; `CMD` and reserved numbers read zero. -/
def hostValue (s : State) (n : BitVec 5) : Word :=
  match hostReg n with
  | .x r => s.getReg r
  | .name0 => s.name0
  | .name1 => s.name1
  | .status => statusWord s.run
  | .cause => s.cause
  | .finfo => s.finfo
  | .faddr => s.faddr
  | .cmd => 0
  | .reserved => 0

/-- `h_ready` for a write, of whatever number: in IDLE only (R32, R33). A write that has no effect
waits like the others (70_reset_and_hazards.md R174, R177, 92_eei_decisions.md D12; log 7). -/
def writeReady (r : Run) (_ : BitVec 5) : Bool :=
  match r with
  | .idle => true
  | .busy _ => false
  | .faulted => false

/-! ### Acceptance (R33, 30_encoding.md R76) -/

/-- What a move comes to: a state, or an accepted command still to be executed on a state. -/
inductive Turn where
  | done (s : State)
  | run (i : Instr) (s : State)
deriving DecidableEq, Repr

/-- A command word is accepted: it is latched and decoded; the two decode faults are taken before
any register is read (30_encoding.md R76, 60_exceptions.md R142, R143). -/
def acceptCommand (c : Cmd) (s : State) : Turn :=
  match decode c with
  | .illegalCommand => .done ((s.latch c).raise .illegalCommand 0)
  | .illegalFormat => .done ((s.latch c).raise .illegalFormat 0)
  | .legal i => .run i (s.latch c)

/-- A host write the port takes (R31 to R33); the read-only and the reserved numbers ignore it. -/
def hostWrite (n : BitVec 5) (d : Word) (s : State) : Turn :=
  match hostReg n with
  | .x r => .done (s.setReg r d)
  | .name0 => .done (s.setName0 d)
  | .name1 => .done (s.setName1 d)
  | .cmd => acceptCommand (d.setWidth 32) s
  | .status => .done s
  | .cause => .done s
  | .finfo => .done s
  | .faddr => .done s
  | .reserved => .done s

/-- The host presents its next transfer (R32, R33): a read is answered in every run state; a write
the port does not take is held off and stays the host's next transfer. -/
def hostTurn (s : State) : Turn :=
  match s.host with
  | [] => .done s
  | .read n :: rest => .done ((s.setHost rest).answer n (hostValue s n))
  | .write n d :: rest =>
    if writeReady s.run n then hostWrite n d (s.setHost rest) else .done s.hold

/-! ### Whose turn it is (R20) -/

/-- One move of an agent. -/
def takeMove (m : Move) (s : State) : Turn :=
  match m with
  | .core => .done (coreStep s)
  | .host => hostTurn s
  | .reset => .done s.applyReset
  | .poke a b => .done (s.poke a b)

/-- The agent that moves when nothing is scheduled: the core while a command runs, else the host
(log 3). -/
def defaultMove (r : Run) : Move :=
  match r with
  | .idle => .host
  | .busy _ => .core
  | .faulted => .host

/-- The next move of the machine. -/
def turn (s : State) : Turn :=
  match s.sched with
  | [] => takeMove (defaultMove s.run) s
  | m :: ms => takeMove m (s.setSched ms)

/-- A state in which the very next step accepts the command word `c`: the FXC is IDLE, the host's
next transfer is the write of `c` to `CMD` and it is the host's turn (log 11). -/
def State.withCommand (s : State) (c : Cmd) : State :=
  { s with
    run := .idle
    host := .write 16 (c.setWidth 64) :: s.host
    held := false
    sched := .host :: s.sched }

end Sys2Proof.Machine
end

