-- ==== Sys2Proof/Machine/Step.lean ====
section
/-! DEFINITION. One step of the machine: one move of one agent (10_state.md R20). -/

namespace Sys2Proof.Machine

/-- One step: the next move is taken; a command it accepts is executed in the same step
(10_state.md R33, R34). -/
def step (s : State) : Host.Outcome State Fault Refusal :=
  match turn s with
  | .done t => .next t
  | .run i t => exec i t

/-- `s` with the command word `w` as the host's next transfer, so that the very next step accepts and
runs it (log 11). -/
def State.withFetchWord (s : State) (nbits w : Nat) : State :=
  s.withCommand (BitVec.ofNat 32 (w % 2 ^ nbits))

end Sys2Proof.Machine
end

