-- ==== Sys2Proof/Safety.lean ====
section
/-! DEFINITION. The terms claims use: the invariant of a well-formed state, a quiet environment, the
spec's own rational readings of a binary32, and the text and reads a range command comes to. -/

namespace Sys2Proof.Machine

/-! ### Safe runs and the invariant -/

/-- A run is safe while no command has faulted (60_exceptions.md R140). -/
def State.safe (s : State) : Prop := s.run ≠ .faulted

/-- The fault record: all zero until a fault (10_state.md R28 to R30); in FAULTED a code 1 to 5, the
command word zero-extended, and an address for the two access causes only (60_exceptions.md R141). -/
def State.recordOk (s : State) : Prop :=
  match s.run with
  | .faulted => (∃ f a, s.cause = faultCode f ∧ s.faddr = faultAddr f a) ∧ s.finfo.toNat < 2 ^ 32
  | .idle => s.cause = 0 ∧ s.finfo = 0 ∧ s.faddr = 0
  | .busy _ => s.cause = 0 ∧ s.finfo = 0 ∧ s.faddr = 0

/-- The text port holds bytes exactly while a line is being handed over (70_reset_and_hazards.md
R171). -/
def State.textOk (s : State) : Prop :=
  match s.run with
  | .busy .rangeLine => s.txq ≠ []
  | .busy .finalText => s.txq ≠ []
  | .busy .elementOne => s.txq = []
  | .busy .elementRange => s.txq = []
  | .idle => s.txq = []
  | .faulted => s.txq = []

/-- The loop registers of a running array command: a valid format, and `IDX` never beyond `STOP`
(43_debug_render.md R130). -/
def State.loopOk (s : State) : Prop :=
  match s.run with
  | .busy .elementOne => s.fmt.valid = true
  | .busy .elementRange => s.fmt.valid = true ∧ s.idx.toNat ≤ s.stop.toNat
  | .busy .rangeLine => s.fmt.valid = true ∧ s.idx.toNat ≤ s.stop.toNat
  | .busy .finalText => True
  | .idle => True
  | .faulted => True

/-- The invariant every step keeps. -/
structure State.Inv (s : State) : Prop where
  record : s.recordOk
  text : s.textOk
  loop : s.loopOk
  memory : Memory.wf s.mem = true
  held : s.held = true → s.host ≠ []

/-- Nothing is scheduled and the host has no transfer to make: only the core moves. -/
def State.quiet (s : State) : Prop := s.sched = [] ∧ s.host = []

/-- The agent that moves next. -/
def State.mover (s : State) : Move :=
  match s.sched with
  | [] => defaultMove s.run
  | m :: _ => m

/-- `k` steps of the machine, stopping where a step does. -/
def runSteps (k : Nat) (s : State) : Host.Outcome State Fault Refusal :=
  Host.Core.run Sys2Proof.core k s

/-! ### Which registers a command names (10_state.md R21) -/

/-- The source registers a command reads. -/
def sources : Instr → List Reg
  | .scale _ _ => []
  | .fixmax _ _ => []
  | .fixmin _ _ => []
  | .fltmax _ _ => []
  | .fltmin _ _ => []
  | .tofix _ _ rs1 => [rs1]
  | .toflt _ _ rs1 => [rs1]
  | .rval _ rs1 => [rs1]
  | .relt _ rs1 rs2 => [rs1, rs2]
  | .rrng _ rs1 rs2 rs3 => [rs1, rs2, rs3]

/-- The register a command writes, if any. -/
def destination : Instr → Option Reg
  | .scale _ rd => some rd
  | .fixmax _ rd => some rd
  | .fixmin _ rd => some rd
  | .fltmax _ rd => some rd
  | .fltmin _ rd => some rd
  | .tofix _ rd _ => some rd
  | .toflt _ rd _ => some rd
  | .rval _ _ => none
  | .relt _ _ _ => none
  | .rrng _ _ _ _ => none

/-- The byte addresses of the elements a command names: those at which its element steps read
(20_memory.md R51, R53). -/
def namesByte (i : Instr) (x : RegFile) (a : Nat) : Prop :=
  match i with
  | .scale _ _ => False
  | .fixmax _ _ => False
  | .fixmin _ _ => False
  | .fltmax _ _ => False
  | .fltmin _ _ => False
  | .tofix _ _ _ => False
  | .toflt _ _ _ => False
  | .rval _ _ => False
  | .relt f rs1 rs2 =>
    ∃ k, k < f.w.bytes ∧ a = elementAddr (x.get rs1) (x.get rs2) f.w + k
  | .rrng f rs1 rs2 rs3 =>
    ∃ idx : Word, (x.get rs2).toNat ≤ idx.toNat ∧ idx.toNat ≤ (x.get rs3).toNat ∧
      ∃ k, k < f.w.bytes ∧ a = elementAddr (x.get rs1) idx f.w + k

/-! ### Binary32 as the spec writes it (00_scope.md R8) -/

/-- `b` is a NaN. -/
def f32IsNaN (b : BitVec 32) : Prop := f32Exp b = 255 ∧ f32Frac b ≠ 0

/-- `b` is `+Infinity` or `−Infinity`, by its sign. -/
def f32IsInf (neg : Bool) (b : BitVec 32) : Prop :=
  f32Exp b = 255 ∧ f32Frac b = 0 ∧ f32Sign b = neg

/-- `F32(b)` of a finite datum as an exact rational, by the two formulas of R8. -/
def f32Rat (b : BitVec 32) : ℚ :=
  (if f32Sign b then -1 else 1) *
    (if f32Exp b = 0 then (f32Frac b : ℚ) * 2 ^ (-149 : ℤ)
     else (2 ^ 23 + f32Frac b : ℚ) * 2 ^ ((f32Exp b : ℤ) - 150))

/-- `x1 < x2` between two binary32 data, neither a NaN, with the infinities at the ends
(41_float_to_fixed.md R101). -/
def f32Lt (b c : BitVec 32) : Prop :=
  ¬ f32IsNaN b ∧ ¬ f32IsNaN c ∧
    ((f32IsInf true b ∧ ¬ f32IsInf true c) ∨ (f32IsInf false c ∧ ¬ f32IsInf false b) ∨
      (f32Exp b ≠ 255 ∧ f32Exp c ≠ 255 ∧ f32Rat b < f32Rat c))

/-- `trunc(q)`: the fractional part discarded (00_scope.md R9). -/
def truncRat (q : ℚ) : ℤ := if 0 ≤ q then ⌊q⌋ else ⌈q⌉

/-- An integer with at most 24 significant bits (42_fixed_to_float.md R111). -/
def has24Bits (v : ℤ) : Prop := ∃ (m : ℤ) (e : ℕ), m.natAbs < 2 ^ 24 ∧ v = m * 2 ^ e

/-- `v` is a value of the W-bit signed type (00_scope.md R7). -/
def inWidth (w : Width) (v : ℤ) : Prop := fixedMin w ≤ v ∧ v ≤ fixedMax w

/-! ### What an array command comes to -/

/-- The element at an index, or the fault its element step raises, in the order of
60_exceptions.md R148. -/
def elementAt (mem : List Host.Cell) (w : Width) (base idx : Word) : Except FaultCause Int :=
  if elementAddr base idx w % w.bytes ≠ 0 then .error .accessMisaligned
  else if 2 ^ 64 < elementAddr base idx w + w.bytes then .error .accessFault
  else
    match memRead mem (elementAddr base idx w) w.bytes with
    | none => .error .accessFault
    | some u => .ok (sintOf w u)

/-- The element lines for `count` indices from `idx` on, if every one of those elements can be
read (43_debug_render.md R130). -/
def rangeText (s : State) (f : QFormat) (base : Word) : Nat → Word → Option (List Byte)
  | 0, _ => some []
  | k + 1, idx =>
    match elementAt s.mem f.w base idx, rangeText s f base k (idx + 1) with
    | .ok v, some rest => some (elementLine f s.name0 s.name1 idx v ++ rest)
    | _, _ => none

/-- The reads of those elements, one each, in ascending order. -/
def rangeReads (w : Width) (base : Word) : Nat → Word → List MemRequest
  | 0, _ => []
  | k + 1, idx => ⟨elementAddr base idx w, w.bytes⟩ :: rangeReads w base k (idx + 1)

end Sys2Proof.Machine
end

