-- ==== Sys2Proof/Certificates/Slice0/Obligations.lean ====
section
/-! DEFINITION. The statements about the model, each from the numbered rules of spec/. -/

open Sys2Proof Sys2Proof.Machine

/-! ### Encoding and decode -/

/-- Decoding the word of an instruction gives it back, with every operand at every value its fields
admit; an ill-formed format is refused by the name of R76 (R71, R75, R76). -/
def Obligations.DecodeOfEncode : Prop :=
  ∀ i : Instr, decode (encode i) = if i.wf then .legal i else .illegalFormat

/-- A legal word is the encoding of the instruction decoded from it: no bit of it is dropped (R71,
R76). -/
def Obligations.EncodeOfDecode : Prop :=
  ∀ (c : Cmd) (i : Instr), decode c = .legal i → i.wf = true ∧ encode i = c

/-- The decoder follows the `match` and `mask` columns of R75: a word is a command exactly when a
row selects it, the rows are disjoint, `z` is inside every mask, each instruction's word lies in its
own row, and a selected word is legal exactly when its format is valid. -/
def Obligations.DecodeFollowsMatchAndMask : Prop :=
  (∀ c : Cmd, decode c ≠ .illegalCommand ↔ ∃ r ∈ opcodeRows, r.selects c = true) ∧
  (∀ c : Cmd, ∀ r ∈ opcodeRows, ∀ q ∈ opcodeRows, r.selects c = true → q.selects c = true → r = q) ∧
  (∀ r ∈ opcodeRows, zOf r.mask = 255) ∧
  (∀ i : Instr, opcodeRow i ∈ opcodeRows ∧ (opcodeRow i).selects (encode i) = true) ∧
  (∀ c : Cmd, (∃ i, decode c = .legal i) ↔
    (∃ r ∈ opcodeRows, r.selects c = true) ∧ (formatOf c).frac ≤ (formatOf c).bits - 1)

/-- Exactly the words R77 names are illegal commands: a reserved `op`, a non-zero `z`, or a non-zero
field its row marks 0; among them the all-zero and the all-ones word. -/
def Obligations.ReservedWordsAreIllegal : Prop :=
  (∀ c : Cmd, decode c = .illegalCommand ↔
    ((opOf c).toNat = 0 ∨ 11 ≤ (opOf c).toNat ∨ zOf c ≠ 0 ∨
     (1 ≤ (opOf c).toNat ∧ (opOf c).toNat ≤ 5 ∧ (rs1Of c ≠ 0 ∨ rs2Of c ≠ 0 ∨ rs3Of c ≠ 0)) ∨
     (6 ≤ (opOf c).toNat ∧ (opOf c).toNat ≤ 7 ∧ (rs2Of c ≠ 0 ∨ rs3Of c ≠ 0)) ∨
     ((opOf c).toNat = 8 ∧ (rdOf c ≠ 0 ∨ rs2Of c ≠ 0 ∨ rs3Of c ≠ 0)) ∨
     ((opOf c).toNat = 9 ∧ (rdOf c ≠ 0 ∨ rs3Of c ≠ 0)) ∨
     ((opOf c).toNat = 10 ∧ rdOf c ≠ 0))) ∧
  decode 0x00000000 = .illegalCommand ∧ decode 0xFFFFFFFF = .illegalCommand

/-- The valid formats are those with `N ≤ W − 1`, 120 in number, and every `n` is valid for `ws = 3`
(R72, R73). -/
def Obligations.ValidFormatsAre120 : Prop :=
  (∀ f : QFormat, f.valid = true ↔ f.n.toNat ≤ f.w.bits - 1) ∧
  (∀ n : BitVec 6, (⟨.w64, n⟩ : QFormat).valid = true) ∧
  (([Width.w8, .w16, .w32, .w64].flatMap fun w =>
    (List.range 64).map fun k => (⟨w, BitVec.ofNat 6 k⟩ : QFormat)).countP (·.valid)) = 120

/-- Words written out in the spec decode to the instructions it gives for them (R79, R91 to R95). -/
def Obligations.SampleWordsDecode : Prop :=
  decode 0x6000114C = .legal (.tofix ⟨.w16, 12⟩ .x1 .x2) ∧
  decode 0x10000007 = .legal (.scale ⟨.w8, 7⟩ .x0) ∧
  decode 0x2000024C = .legal (.fixmax ⟨.w16, 12⟩ .x2) ∧
  decode 0x3000034C = .legal (.fixmin ⟨.w16, 12⟩ .x3) ∧
  decode 0x4000044C = .legal (.fltmax ⟨.w16, 12⟩ .x4) ∧
  decode 0x5000054C = .legal (.fltmin ⟨.w16, 12⟩ .x5) ∧
  decode 0x8000184F = .legal (.rval ⟨.w16, 15⟩ .x3) ∧
  decode 0x9001609E = .legal (.relt ⟨.w32, 30⟩ .x4 .x5) ∧
  decode 0xA006884F = .legal (.rrng ⟨.w16, 15⟩ .x1 .x2 .x3) ∧
  decode 0x70003FEF = .legal (.toflt ⟨.w64, 47⟩ .x7 .x7) ∧
  decode 0x60000108 = .illegalFormat

/-- The pseudo-instruction `limits.W.N xa` with `a ≤ 3` stands for five commands, in order, on the
registers `a` to `a + 4`, and is an error for `a > 3` (R80); an assembler rejects an invalid format
(R79). -/
def Obligations.LimitsPseudoInstruction : Prop :=
  (∀ f, limitsExpansion f .x0 =
    some [.scale f .x0, .fixmax f .x1, .fixmin f .x2, .fltmax f .x3, .fltmin f .x4]) ∧
  (∀ f, limitsExpansion f .x1 =
    some [.scale f .x1, .fixmax f .x2, .fixmin f .x3, .fltmax f .x4, .fltmin f .x5]) ∧
  (∀ f, limitsExpansion f .x2 =
    some [.scale f .x2, .fixmax f .x3, .fixmin f .x4, .fltmax f .x5, .fltmin f .x6]) ∧
  (∀ f, limitsExpansion f .x3 =
    some [.scale f .x3, .fixmax f .x4, .fixmin f .x5, .fltmax f .x6, .fltmin f .x7]) ∧
  (∀ f a, limitsExpansion f a = none ↔ 3 < (regBits a).toNat) ∧
  (∀ i : Instr, assemble i = none ↔ i.fmt.w.bits - 1 < i.fmt.n.toNat)

/-! ### Acceptance and the host port -/

/-- A step runs the decoded instruction: when it is the host's turn, the FXC is IDLE and the host's
next transfer writes a legal word to `CMD`, the step is `exec` of that instruction on the state in
which the transfer is done and the word latched; `d[63:32]` is ignored (R33, R76). Whose turn it is,
and the mark the step clears, are the model's (log 3, log 6). -/
def Obligations.StepRunsTheDecodedCommand : Prop :=
  ∀ (s : State) (d : Word) (rest : List Transfer) (i : Instr),
    s.mover = .host → s.run = .idle → s.host = .write 16 d :: rest →
    decode (d.setWidth 32) = .legal i →
    step s = exec i
      { s with sched := s.sched.tail, host := rest, held := false, cmd := d.setWidth 32 }

/-- A word that no row of R75 selects is accepted and faults with `IllegalCommand`: the record is
written, the FXC is FAULTED, no register, no text and no memory changes (R142). -/
def Obligations.IllegalCommandFaults : Prop :=
  ∀ (s : State) (d : Word) (rest : List Transfer),
    s.mover = .host → s.run = .idle → s.host = .write 16 d :: rest →
    (∀ r ∈ opcodeRows, r.selects (d.setWidth 32) = false) →
    step s = .next
      { s with
        sched := s.sched.tail, host := rest, held := false, cmd := d.setWidth 32
        cause := 1, finfo := (d.setWidth 32 : Cmd).setWidth 64, faddr := 0, run := .faulted }

/-- A word of a row of R75 whose format has `n > Wof(ws) − 1` faults with `IllegalFormat` whatever
the operation, before any register is read; with `ws = 3` no word does (R143). -/
def Obligations.IllegalFormatFaults : Prop :=
  (∀ (s : State) (d : Word) (rest : List Transfer),
    s.mover = .host → s.run = .idle → s.host = .write 16 d :: rest →
    (∃ r ∈ opcodeRows, r.selects (d.setWidth 32) = true) →
    (formatOf (d.setWidth 32)).w.bits - 1 < (formatOf (d.setWidth 32)).n.toNat →
    step s = .next
      { s with
        sched := s.sched.tail, host := rest, held := false, cmd := d.setWidth 32
        cause := 2, finfo := (d.setWidth 32 : Cmd).setWidth 64, faddr := 0, run := .faulted }) ∧
  (∀ c : Cmd, wsOf c = 3 → decode c ≠ .illegalFormat)

/-- A host read is answered in every run state with the register's current value and changes nothing
else; `STATUS` reads 0, 1 or 2, `CMD` and the reserved numbers read zero (R31, R32). The list of
answers is the model's record of what the host was told (log 12). -/
def Obligations.HostReadReturnsTheRegister : Prop :=
  (∀ (s : State) (n : BitVec 5) (rest : List Transfer),
    s.mover = .host → s.host = .read n :: rest →
    step s = .next
      { s with
        sched := s.sched.tail, host := rest, held := false
        rdata := s.rdata ++ [(n, hostValue s n)] }) ∧
  (∀ (s : State) (r : Reg), hostValue s ((regBits r).setWidth 5) = s.x.get r) ∧
  (∀ s : State, hostValue s 8 = s.name0 ∧ hostValue s 9 = s.name1 ∧ hostValue s 11 = s.cause ∧
    hostValue s 12 = s.finfo ∧ hostValue s 13 = s.faddr ∧ hostValue s 16 = 0) ∧
  (∀ s : State, (s.run = .idle → hostValue s 10 = 0) ∧ (∀ p, s.run = .busy p → hostValue s 10 = 1) ∧
    (s.run = .faulted → hostValue s 10 = 2)) ∧
  (∀ (s : State) (n : BitVec 5), n = 14 ∨ n = 15 ∨ 17 ≤ n.toNat → hostValue s n = 0)

/-- A host write in IDLE takes effect: `x0`..`x7`, `NAME0` and `NAME1` are written and nothing else
of the FXC changes; writes to the read-only and the reserved numbers are ignored (R31, R32). -/
def Obligations.HostWriteTakesEffectInIdle : Prop :=
  ∀ (s : State) (n : BitVec 5) (d : Word) (rest : List Transfer),
    s.mover = .host → s.run = .idle → s.host = .write n d :: rest →
    (∀ r : Reg, n = (regBits r).setWidth 5 → step s = .next
      { s with sched := s.sched.tail, host := rest, held := false, x := s.x.set r d }) ∧
    (n = 8 → step s = .next
      { s with sched := s.sched.tail, host := rest, held := false, name0 := d }) ∧
    (n = 9 → step s = .next
      { s with sched := s.sched.tail, host := rest, held := false, name1 := d }) ∧
    (10 ≤ n.toNat → n ≠ 16 → step s = .next
      { s with sched := s.sched.tail, host := rest, held := false })

/-- A host write of any register number while the FXC is BUSY or FAULTED is not taken: it stays the
host's next transfer, marked as held off, and nothing else changes (R32, R33, R140, R174, R177). The
mark is the model's (log 6), and so is the reading that a write which has no effect in IDLE waits
too (log 7). -/
def Obligations.HostWriteIsHeldOffOutsideIdle : Prop :=
  ∀ (s : State) (n : BitVec 5) (d : Word) (rest : List Transfer),
    s.mover = .host → s.run ≠ .idle → s.host = .write n d :: rest →
    step s = .next { s with sched := s.sched.tail, held := true }

/-- `STATUS` has bit 0 exactly in BUSY, bit 1 exactly in FAULTED, never both, and every other bit
zero; a host write to it changes no register, no run state and no fault record in any run state
(R27). In IDLE the write is taken, and in BUSY and FAULTED it waits as any write does (R177), which
for BUSY is the model's reading (log 7). -/
def Obligations.StatusReflectsTheRunState : Prop :=
  (∀ r : Run, ((statusWord r).getLsbD 0 = true ↔ ∃ p, r = .busy p) ∧
    ((statusWord r).getLsbD 1 = true ↔ r = .faulted) ∧
    ¬ ((statusWord r).getLsbD 0 = true ∧ (statusWord r).getLsbD 1 = true) ∧
    ∀ k, 2 ≤ k → (statusWord r).getLsbD k = false) ∧
  (∀ (s : State) (d : Word) (rest : List Transfer),
    s.mover = .host → s.host = .write 10 d :: rest →
    (s.run = .idle → step s = .next { s with sched := s.sched.tail, host := rest, held := false }) ∧
    (s.run ≠ .idle → step s = .next { s with sched := s.sched.tail, held := true }))

/-! ### The Calculator -/

/-- `SCALE` completes for every valid format in every state: it writes `2^N`, unsigned and without
loss, to `x[rd]` and changes nothing else (R91). -/
def Obligations.ScaleWritesPowerOfTwo : Prop :=
  ∀ (f : QFormat) (rd : Reg) (s : State), f.valid = true →
    exec (.scale f rd) s = .next { s with x := s.x.set rd (BitVec.ofNat 64 (2 ^ f.n.toNat)) } ∧
    (BitVec.ofNat 64 (2 ^ f.n.toNat)).toNat = 2 ^ f.n.toNat ∧
    encode (.scale f rd) &&& 0xFFFFF800 = 0x10000000 ∧
    decode (encode (.scale f rd)) = .legal (.scale f rd)

/-- `FIXMAX` and `FIXMIN` complete for every valid format: they write `2^(W−1) − 1` and `−2^(W−1)`,
sign-extended, whatever N, and change nothing else (R92, R93). -/
def Obligations.FixedLimitsAreWritten : Prop :=
  ∀ (f : QFormat) (rd : Reg) (s : State), f.valid = true →
    exec (.fixmax f rd) s =
      .next { s with x := s.x.set rd (BitVec.ofInt 64 (2 ^ (f.w.bits - 1) - 1)) } ∧
    exec (.fixmin f rd) s =
      .next { s with x := s.x.set rd (BitVec.ofInt 64 (-2 ^ (f.w.bits - 1))) } ∧
    (BitVec.ofInt 64 (2 ^ (f.w.bits - 1) - 1)).toInt = 2 ^ (f.w.bits - 1) - 1 ∧
    (BitVec.ofInt 64 (-2 ^ (f.w.bits - 1))).toInt = -2 ^ (f.w.bits - 1) ∧
    encode (.fixmax f rd) &&& 0xFFFFF800 = 0x20000000 ∧
    encode (.fixmin f rd) &&& 0xFFFFF800 = 0x30000000 ∧
    decode (encode (.fixmax f rd)) = .legal (.fixmax f rd) ∧
    decode (encode (.fixmin f rd)) = .legal (.fixmin f rd)

/-- `FLTMAX` and `FLTMIN` complete for every valid format: with `k = W − 1 − N` they write `(k +
127) × 2^23` and that plus `0x80000000`, whose binary32 values are exactly `2^k` and `−2^k`, with
bits [63:32] zero, and change nothing else (R94, R95). -/
def Obligations.FloatLimitsAreWritten : Prop :=
  ∀ (f : QFormat) (rd : Reg) (s : State), f.valid = true →
    ∃ hi lo : BitVec 32,
      exec (.fltmax f rd) s = .next { s with x := s.x.set rd (hi.setWidth 64) } ∧
      exec (.fltmin f rd) s = .next { s with x := s.x.set rd (lo.setWidth 64) } ∧
      hi.toNat = (f.w.bits - 1 - f.n.toNat + 127) * 2 ^ 23 ∧
      lo.toNat = 0x80000000 + (f.w.bits - 1 - f.n.toNat + 127) * 2 ^ 23 ∧
      f32Rat hi = 2 ^ (f.w.bits - 1 - f.n.toNat) ∧
      f32Rat lo = -2 ^ (f.w.bits - 1 - f.n.toNat) ∧
      encode (.fltmax f rd) &&& 0xFFFFF800 = 0x40000000 ∧
      encode (.fltmin f rd) &&& 0xFFFFF800 = 0x50000000 ∧
      decode (encode (.fltmax f rd)) = .legal (.fltmax f rd) ∧
      decode (encode (.fltmin f rd)) = .legal (.fltmin f rd)

/-! ### The Float→Fixed Converter -/

/-- `TOFIX` completes for every valid format and every operand bits and writes `sext_64(r)` and
nothing else, with `r` as R100 says over exact rationals: `fixed_max` for a NaN and for a value at
or above `2^(W−1−N)` or `+Infinity`, `fixed_min` below `−2^(W−1−N)` or for `−Infinity`, and the
exact product by `2^N` truncated toward zero otherwise (R100). -/
def Obligations.TofixSaturatesAndTruncates : Prop :=
  ∀ (f : QFormat) (rd rs1 : Reg) (s : State), f.valid = true →
    ∃ r : ℤ,
      exec (.tofix f rd rs1) s = .next { s with x := s.x.set rd (BitVec.ofInt 64 r) } ∧
      encode (.tofix f rd rs1) &&& 0xFFFFC000 = 0x60000000 ∧
      decode (encode (.tofix f rd rs1)) = .legal (.tofix f rd rs1) ∧
      ∀ b : BitVec 32, b = (s.x.get rs1).setWidth 32 →
        (f32IsNaN b → r = 2 ^ (f.w.bits - 1) - 1) ∧
        (f32IsInf false b → r = 2 ^ (f.w.bits - 1) - 1) ∧
        (f32IsInf true b → r = -2 ^ (f.w.bits - 1)) ∧
        (f32Exp b ≠ 255 → (2 : ℚ) ^ (f.w.bits - 1 - f.n.toNat) ≤ f32Rat b →
          r = 2 ^ (f.w.bits - 1) - 1) ∧
        (f32Exp b ≠ 255 → f32Rat b < -(2 : ℚ) ^ (f.w.bits - 1 - f.n.toNat) →
          r = -2 ^ (f.w.bits - 1)) ∧
        (f32Exp b ≠ 255 → -(2 : ℚ) ^ (f.w.bits - 1 - f.n.toNat) ≤ f32Rat b →
          f32Rat b < (2 : ℚ) ^ (f.w.bits - 1 - f.n.toNat) →
          r = truncRat (f32Rat b * 2 ^ f.n.toNat))

/-- The five laws of `to_fixed` (R106): saturation at and beyond the limits, zero identity,
truncation within them, monotonicity over all non-NaN operands, and range for every operand. -/
def Obligations.ToFixedLaws : Prop :=
  ∀ f : QFormat, f.valid = true →
    (toFixed f (floatMaxBits f) = fixedMax f.w ∧ toFixed f (floatMinBits f) = fixedMin f.w ∧
      (∀ b, f32Lt (floatMaxBits f) b → toFixed f b = fixedMax f.w) ∧
      (∀ b, f32Lt b (floatMinBits f) → toFixed f b = fixedMin f.w)) ∧
    (toFixed f 0x00000000 = 0 ∧ toFixed f 0x80000000 = 0) ∧
    (∀ b, f32Exp b ≠ 255 → f32Rat (floatMinBits f) ≤ f32Rat b → f32Rat b < f32Rat (floatMaxBits f) →
      toFixed f b = truncRat (f32Rat b * 2 ^ f.n.toNat)) ∧
    (∀ b c, f32Lt b c → toFixed f b ≤ toFixed f c) ∧
    (∀ b, inWidth f.w (toFixed f b))

/-! ### The Fixed→Float Converter -/

/-- `RNE24(v)` is the integer with at most 24 significant bits nearest to `v`, ties to an even
24-bit significand; it is the identity on integers that have at most 24 significant bits, odd,
monotone, and off by at most `2^(L−25)` for an `L`-bit `v` with `L > 24` (R111). -/
def Obligations.RneIsNearestTiesToEven : Prop :=
  (∀ v : ℤ, has24Bits (rne24 v) ∧
    (∀ u, has24Bits u → |v - rne24 v| ≤ |v - u|) ∧
    (∀ u, has24Bits u → u ≠ rne24 v → |v - u| = |v - rne24 v| →
      (rne24 v).natAbs % 2 ^ (Nat.size v.natAbs - 23) = 0) ∧
    (has24Bits v → rne24 v = v) ∧
    rne24 (-v) = -rne24 v ∧
    (24 < Nat.size v.natAbs → |rne24 v - v| ≤ 2 ^ (Nat.size v.natAbs - 25))) ∧
  (∀ u v : ℤ, u ≤ v → rne24 u ≤ rne24 v)

/-- `TOFLT` completes for every valid format and every register content: with `v` the signed value
of the low W bits of the operand it writes, with bits [63:32] zero, a binary32 whose value is
exactly `RNE24(v) / 2^N`, `+0.0` for 0 and otherwise a normal number with exponent field 64 to 190,
and changes nothing else (R110 to R113). -/
def Obligations.TofltDividesTheRoundedValue : Prop :=
  ∀ (f : QFormat) (rd rs1 : Reg) (s : State), f.valid = true →
    ∃ b : BitVec 32,
      exec (.toflt f rd rs1) s = .next { s with x := s.x.set rd (b.setWidth 64) } ∧
      encode (.toflt f rd rs1) &&& 0xFFFFC000 = 0x70000000 ∧
      decode (encode (.toflt f rd rs1)) = .legal (.toflt f rd rs1) ∧
      ∀ v : ℤ, v = ((s.x.get rs1).setWidth f.w.bits).toInt →
        f32Rat b = (rne24 v : ℚ) / 2 ^ f.n.toNat ∧
        (rne24 v = 0 → b = 0) ∧
        (rne24 v ≠ 0 → 64 ≤ f32Exp b ∧ f32Exp b ≤ 190)

/-- Every value of the format maps into the float limits, both ends reached: `fixed_min` gives
`float_min`, `fixed_max` gives `float_max` for W of 32 and 64 and `(2^(W−1) − 1) / 2^N` for 8 and
16, and 0 gives `+0.0` (R114). -/
def Obligations.ToFloatStaysWithinFloatLimits : Prop :=
  ∀ f : QFormat, f.valid = true →
    (∀ v, inWidth f.w v → f32Rat (floatMinBits f) ≤ f32Rat (toFloatBits f v) ∧
      f32Rat (toFloatBits f v) ≤ f32Rat (floatMaxBits f)) ∧
    toFloatBits f (fixedMin f.w) = floatMinBits f ∧
    (f.w = .w32 ∨ f.w = .w64 → toFloatBits f (fixedMax f.w) = floatMaxBits f) ∧
    (f.w = .w8 ∨ f.w = .w16 →
      f32Rat (toFloatBits f (fixedMax f.w)) = ((2 : ℚ) ^ (f.w.bits - 1) - 1) / 2 ^ f.n.toNat) ∧
    toFloatBits f 0 = 0

/-- Converting to binary32 and back gives `min(RNE24(v), fixed_max)`: it returns `v` exactly when
`RNE24(v) = v`, or for `fixed_max` of W 32 and 64, so always for W 8 and 16; and the error of
`to_float` is that of `RNE24` over `2^N` (R115). -/
def Obligations.RoundTripReturnsRoundedValue : Prop :=
  ∀ (f : QFormat) (v : ℤ), f.valid = true → inWidth f.w v →
    toFixed f (toFloatBits f v) = min (rne24 v) (fixedMax f.w) ∧
    (toFixed f (toFloatBits f v) = v ↔
      rne24 v = v ∨ (v = fixedMax f.w ∧ (f.w = .w32 ∨ f.w = .w64))) ∧
    (f.w = .w8 ∨ f.w = .w16 → toFixed f (toFloatBits f v) = v) ∧
    |f32Rat (toFloatBits f v) - (v : ℚ) / 2 ^ f.n.toNat| =
      |(rne24 v : ℚ) - (v : ℚ)| / 2 ^ f.n.toNat

/-! ### Text -/

/-- `DecU(u)` is the decimal numeral of `u` in ASCII, most significant digit first, with no leading
zeros, and `"0"` for 0; padding fills to the column count with spaces (R121). -/
def Obligations.DecimalNumeralIsExact : Prop :=
  (∀ u : ℕ, decU u = if u = 0 then [0x30]
    else (Nat.digits 10 u).reverse.map fun d => BitVec.ofNat 8 (0x30 + d)) ∧
  (∀ (l : List Byte) (c : ℕ), l.length ≤ c →
    padLeft l c = List.replicate (c - l.length) 0x20 ++ l ∧ (padLeft l c).length = c ∧
    padRight l c = l ++ List.replicate (c - l.length) 0x20 ∧ (padRight l c).length = c)

/-- `Dec21(b)` of a finite binary32 prints the exact value to 21 fractional digits, rounded to
nearest with ties to the even digit: sign, integer part, point, exactly 21 digits (R124). -/
def Obligations.ValueTextIsNearestDecimal : Prop :=
  ∀ b : BitVec 32, f32Exp b ≠ 255 →
    ∃ (q : ℕ) (ds : List ℕ),
      (∀ p : ℕ, |(|f32Rat b| * 10 ^ 21 - q)| ≤ |(|f32Rat b| * 10 ^ 21 - p)|) ∧
      (|(|f32Rat b| * 10 ^ 21 - q)| = 1 / 2 → q % 2 = 0) ∧
      ds.length = 21 ∧ (∀ d ∈ ds, d < 10) ∧ Nat.ofDigits 10 ds.reverse = q % 10 ^ 21 ∧
      dec21Bits b = (if f32Rat b < 0 then [0x2D] else []) ++ decU (q / 10 ^ 21) ++ [0x2E]
        ++ ds.map fun d => BitVec.ofNat 8 (0x30 + d)

/-- The name field is the bytes of `NAME` before its first zero byte, then spaces to 16 columns;
byte `k` of the name is bits [8k+7 : 8k] of `NAME1` over `NAME0` (R26, R122). -/
def Obligations.NameFieldIsTheNameString : Prop :=
  ∀ name0 name1 : Word, (nameField name0 name1).length = 16 ∧
    ∃ L : ℕ, L ≤ 16 ∧
      (∀ k, k < L → (name1 ++ name0).extractLsb' (8 * k) 8 ≠ 0 ∧
        (nameField name0 name1)[k]? = some ((name1 ++ name0).extractLsb' (8 * k) 8)) ∧
      (L < 16 → (name1 ++ name0).extractLsb' (8 * L) 8 = 0) ∧
      (∀ k, L ≤ k → k < 16 → (nameField name0 name1)[k]? = some 0x20)

/-- The format tag is `Q` and N in decimal, left-aligned in 3 columns: `Q0 ` to `Q9 ` with a space,
`Q10` to `Q63` with none (R123). -/
def Obligations.TagFieldShowsFractionalBits : Prop :=
  ∀ n : ℕ, (n < 10 → tagField n = [0x51, BitVec.ofNat 8 (0x30 + n), 0x20]) ∧
    (10 ≤ n → n ≤ 63 →
      tagField n = [0x51, BitVec.ofNat 8 (0x30 + n / 10), BitVec.ofNat 8 (0x30 + n % 10)])

/-- The bytes of the two line forms: the name field, a space, the tag field, then ` = ` or ` [`, the
index in 20 columns and `] = `, then `Dec21` of the bits `TOFLT` writes for the value, right-aligned
in 42 columns, then LF. Every value line is 66 bytes and every element line 89, each ending in LF,
and the terminator is the 5 bytes `#END` LF (R125 to R127, R131). -/
def Obligations.LinesHaveFixedLength : Prop :=
  (∀ (f : QFormat) (name0 name1 i : Word) (v : ℤ), f.valid = true → inWidth f.w v →
    (valueLine f name0 name1 v).length = 66 ∧
    (valueLine f name0 name1 v).getLast? = some 0x0A ∧
    (elementLine f name0 name1 i v).length = 89 ∧
    (elementLine f name0 name1 i v).getLast? = some 0x0A ∧
    valueLine f name0 name1 v =
      nameField name0 name1 ++ [0x20] ++ tagField f.n.toNat ++ [0x20, 0x3D, 0x20] ++
        padLeft (dec21Bits (toFloatBits f v)) 42 ++ [0x0A] ∧
    elementLine f name0 name1 i v =
      nameField name0 name1 ++ [0x20] ++ tagField f.n.toNat ++ [0x20, 0x5B] ++
        padLeft (decU i.toNat) 20 ++ [0x5D, 0x20, 0x3D, 0x20] ++
        padLeft (dec21Bits (toFloatBits f v)) 42 ++ [0x0A] ∧
    (dec21Bits (toFloatBits f v)).length ≤ 42 ∧ (decU i.toNat).length ≤ 20) ∧
  (∀ (f : QFormat) (rd rs1 : Reg) (s : State), f.valid = true →
    exec (.toflt f rd rs1) s = .next
      { s with
        x := s.x.set rd
          ((toFloatBits f ((s.x.get rs1).setWidth f.w.bits).toInt).setWidth 64) }) ∧
  termLine = [0x23, 0x45, 0x4E, 0x44, 0x0A]

/-! ### The render commands -/

/-- `RVAL` of a valid format begins its value line: from IDLE, where a command is accepted (R33),
and by the same formula in the other run states, which no step reaches (log 21). With nothing else
scheduled (log 3) it hands the 66 bytes to the sink one a step and is IDLE after the last; nothing
else changes (R128). One byte a step is the model's (log 5). -/
def Obligations.RvalEmitsItsLine : Prop :=
  ∀ (f : QFormat) (rs1 : Reg) (s : State) (line : List Byte), f.valid = true → s.sched = [] →
    line = valueLine f s.name0 s.name1 ((s.x.get rs1).setWidth f.w.bits).toInt →
    ∃ t, exec (.rval f rs1) s = .next t ∧
      t = { s with txq := line, run := .busy .finalText } ∧
      runSteps 66 t = .next { s with txt := s.txt ++ line, txq := [], run := .idle } ∧
      encode (.rval f rs1) &&& 0xFFFFC700 = 0x80000000 ∧
      decode (encode (.rval f rs1)) = .legal (.rval f rs1)

/-- `RELT` of a valid format latches format, base and index: from IDLE, where a command is accepted
(R33), and by the same formula in the other run states, which no step reaches (log 21). With nothing
else scheduled (log 3) and a readable element it makes its one read, then hands the 89 bytes of its
line to the sink and is IDLE; no register and no memory changes (R129). One byte a step, the
two-step form and the record of requests are the model's (log 5, log 12, log 20), and so is what the
hidden registers hold afterwards (log 22). -/
def Obligations.ReltEmitsItsLine : Prop :=
  ∀ (f : QFormat) (rs1 rs2 : Reg) (s : State), f.valid = true → s.sched = [] →
    ∃ t, exec (.relt f rs1 rs2) s = .next t ∧
      t = { s with
        fmt := f, base := s.x.get rs1, idx := s.x.get rs2, run := .busy .elementOne } ∧
      encode (.relt f rs1 rs2) &&& 0xFFFE0700 = 0x90000000 ∧
      decode (encode (.relt f rs1 rs2)) = .legal (.relt f rs1 rs2) ∧
      ∀ v, elementAt s.mem f.w (s.x.get rs1) (s.x.get rs2) = .ok v →
        runSteps 90 t = .next
          { t with
            txt := s.txt ++ elementLine f s.name0 s.name1 (s.x.get rs2) v
            txq := []
            run := .idle
            reads := s.reads ++
              [⟨(s.x.get rs1).toNat + (s.x.get rs2).toNat * (f.w.bits / 8), f.w.bits / 8⟩] }

/-- `RRNG` with start ≤ stop latches its operands and the element steps follow; with start > stop it
faults with `RangeOrder`, nothing read and nothing emitted (R35, R130, R144). A step accepts a
command in IDLE and with a valid format only (R33, R76); that `exec` computes the same in the other
cases is the model's (log 21). -/
def Obligations.RrngAcceptsOrRefusesItsRange : Prop :=
  ∀ (f : QFormat) (rs1 rs2 rs3 : Reg) (s : State),
    encode (.rrng f rs1 rs2 rs3) &&& 0xFFF00700 = 0xA0000000 ∧
    ((s.x.get rs2).toNat ≤ (s.x.get rs3).toNat →
      exec (.rrng f rs1 rs2 rs3) s = .next
        { s with
          fmt := f, base := s.x.get rs1, stop := s.x.get rs3, idx := s.x.get rs2
          run := .busy .elementRange }) ∧
    ((s.x.get rs3).toNat < (s.x.get rs2).toNat →
      exec (.rrng f rs1 rs2 rs3) s = .next
        { s with cause := 3, finfo := s.cmd.setWidth 64, faddr := 0, run := .faulted })

/-- With nothing else scheduled (log 3), an `RRNG` whose elements can all be read makes one read per
index in ascending order, hands over one 89-byte line per index of `[start, stop]` and then the
terminator, and completes: `89 × (stop − start + 1) + 5` bytes in all; no register, name or memory
changes (R130). One byte a step and the record of requests are the model's (log 5, log 12), and so
is what the hidden registers hold afterwards (log 22). -/
def Obligations.RrngEmitsTheWholeRange : Prop :=
  ∀ (f : QFormat) (rs1 rs2 rs3 : Reg) (s : State) (count : ℕ) (text : List Byte),
    f.valid = true → s.sched = [] →
    (s.x.get rs2).toNat ≤ (s.x.get rs3).toNat →
    count = (s.x.get rs3).toNat - (s.x.get rs2).toNat + 1 →
    rangeText s f (s.x.get rs1) count (s.x.get rs2) = some text →
    text.length = 89 * count ∧
    ∃ t, exec (.rrng f rs1 rs2 rs3) s = .next t ∧
      runSteps (90 * count + 5) t = .next
        { s with
          fmt := f
          base := s.x.get rs1
          stop := s.x.get rs3
          idx := s.x.get rs3
          txt := s.txt ++ text ++ [0x23, 0x45, 0x4E, 0x44, 0x0A]
          txq := []
          run := .idle
          reads := s.reads ++ rangeReads f.w (s.x.get rs1) count (s.x.get rs2) }

/-- With nothing else scheduled (log 3), an `RRNG` whose element at `start + k` is the first that
cannot be read leaves the complete lines of the `k` elements before it, no partial line and no
terminator, the reads of those elements (and the failing one's, if it was aligned and in range), and
the record of that fault; no register, name or memory changes (R130, R150). One byte a step and the
record of requests are the model's (log 5, log 12). -/
def Obligations.RrngFaultLeavesWholeLines : Prop :=
  ∀ (f : QFormat) (rs1 rs2 rs3 : Reg) (s : State) (k ea : ℕ) (text : List Byte) (c : FaultCause),
    f.valid = true → s.sched = [] → s.txq = [] →
    (s.x.get rs2).toNat + k ≤ (s.x.get rs3).toNat →
    ea = (s.x.get rs1).toNat + ((s.x.get rs2).toNat + k) * (f.w.bits / 8) →
    rangeText s f (s.x.get rs1) k (s.x.get rs2) = some text →
    elementAt s.mem f.w (s.x.get rs1) (s.x.get rs2 + BitVec.ofNat 64 k) = .error c →
    ∃ t u, exec (.rrng f rs1 rs2 rs3) s = .next t ∧ runSteps (90 * k + 1) t = .next u ∧
      u.txt = s.txt ++ text ∧ u.txq = [] ∧ u.run = .faulted ∧ u.cause = faultCode c ∧
      u.finfo = s.cmd.setWidth 64 ∧ u.faddr = BitVec.ofNat 64 ea ∧
      u.reads = s.reads ++ rangeReads f.w (s.x.get rs1) k (s.x.get rs2) ++
        (if ea % (f.w.bits / 8) = 0 ∧ ea + f.w.bits / 8 ≤ 2 ^ 64 then [⟨ea, f.w.bits / 8⟩] else []) ∧
      u.x = s.x ∧ u.name0 = s.name0 ∧ u.name1 = s.name1 ∧ u.mem = s.mem

/-- The access faults of an element step, in the order of R148: a misaligned element and one beyond
2^64 fault with no read made, one with an unmapped byte after its one read; `CAUSE` is 4 or 5,
`FADDR` is the element address modulo 2^64, and nothing is emitted (R145, R146). A platform error
counts as an unmapped byte, and the record of requests is the model's (log 2, log 12). -/
def Obligations.AccessFaultsAreTaken : Prop :=
  ∀ (s : State) (ea size : ℕ), s.sched = [] →
    (s.run = .busy .elementOne ∨ s.run = .busy .elementRange) →
    size = s.fmt.w.bits / 8 → ea = s.base.toNat + s.idx.toNat * size →
    (ea % size ≠ 0 → step s = .next
      { s with
        cause := 4, finfo := s.cmd.setWidth 64, faddr := BitVec.ofNat 64 ea, run := .faulted }) ∧
    (ea % size = 0 → 2 ^ 64 < ea + size → step s = .next
      { s with
        cause := 5, finfo := s.cmd.setWidth 64, faddr := BitVec.ofNat 64 ea, run := .faulted }) ∧
    (ea % size = 0 → ea + size ≤ 2 ^ 64 → (∃ k, k < size ∧ memByte s.mem (ea + k) = none) →
      step s = .next
      { s with
        cause := 5, finfo := s.cmd.setWidth 64, faddr := BitVec.ofNat 64 ea, run := .faulted
        reads := s.reads ++ [⟨ea, size⟩] })

/-- What a command appends to `TXT` is a function of the command, the registers it reads, `NAME` and
the bytes of the elements it names, and of nothing else: two IDLE states with nothing else scheduled
that agree on those, whatever the rest of their memory, emit the same bytes at every step count
(R132). One byte a step is the model's (log 5). -/
def Obligations.EmittedTextDependsOnInputsOnly : Prop :=
  ∀ (i : Instr) (k : ℕ) (s1 s2 : State), s1.quiet → s2.quiet → s1.run = .idle → s2.run = .idle →
    (∀ r ∈ sources i, s1.x.get r = s2.x.get r) →
    s1.name0 = s2.name0 → s1.name1 = s2.name1 →
    (∀ a, namesByte i s1.x a → memByte s1.mem a = memByte s2.mem a) →
    ∃ u1 u2 t1 t2 out, exec i s1 = .next u1 ∧ exec i s2 = .next u2 ∧
      runSteps k u1 = .next t1 ∧ runSteps k u2 = .next t2 ∧
      t1.txt = s1.txt ++ out ∧ t2.txt = s2.txt ++ out

/-- A command writes no general register but its `rd`, no half of `NAME`, no memory and no text at
its acceptance, in whatever way it is accepted (R21, R25, R26). -/
def Obligations.OnlyTheDestinationRegisterChanges : Prop :=
  ∀ (i : Instr) (s t : State), exec i s = .next t →
    (∀ r, destination i ≠ some r → t.x.get r = s.x.get r) ∧
    t.name0 = s.name0 ∧ t.name1 = s.name1 ∧ t.mem = s.mem ∧ t.txt = s.txt ∧ t.reads = s.reads ∧
    (∀ r, destination i = some r → t.run = s.run ∧ t.cause = s.cause ∧ t.finfo = s.finfo ∧
      t.faddr = s.faddr)

/-! ### Faults, reset and the whole machine -/

/-- The machine never stops of itself: every step from every state has a next state, for decode is
total and every fault is an entry into FAULTED (R76, R140). That a transfer to a FAULTED FXC waits
in a next state is the model's reading (log 8, log 17). -/
def Obligations.EveryStepHasANextState : Prop :=
  ∀ s : State, ∃ t, step s = .next t

/-- The invariant holds right after reset (R40). -/
def Obligations.ResetMeetsTheInvariant : Prop := State.reset.Inv

/-- Every step keeps the invariant: the fault record is zero until a fault and then one of the codes
1 to 5 with a zero-extended word and an address for the access causes only; the text port holds
bytes exactly while a line is handed over; a running range has a valid format and `IDX ≤ STOP`; and
memory keeps its canonical form (R28 to R30, R130, R141, R171). The canonical form and the held-off
mark are the model's (log 2, log 6). -/
def Obligations.StepKeepsTheInvariant : Prop :=
  ∀ s t : State, s.Inv → step s = .next t → t.Inv

/-- Whatever step enters FAULTED, it writes the record of R149 (a code of R141, the word of the
command, an address for the access causes only) and leaves the registers, the name, the text, the
memory and, for a running command, its operands as they were (R149). What the hidden registers hold
in FAULTED is unspecified, and that they keep their values is the model's (log 22). -/
def Obligations.FaultEntryWritesOnlyTheRecord : Prop :=
  ∀ s t : State, s.run ≠ .faulted → step s = .next t → t.run = .faulted →
    t.x = s.x ∧ t.name0 = s.name0 ∧ t.name1 = s.name1 ∧ t.txt = s.txt ∧ t.txq = s.txq ∧
    t.mem = s.mem ∧ t.fmt = s.fmt ∧ t.base = s.base ∧ t.stop = s.stop ∧ t.idx = s.idx ∧
    t.finfo = t.cmd.setWidth 64 ∧ (s.run ≠ .idle → t.cmd = s.cmd) ∧
    ((t.cause = 1 ∧ t.faddr = 0) ∨ (t.cause = 2 ∧ t.faddr = 0) ∨ (t.cause = 3 ∧ t.faddr = 0) ∨
      t.cause = 4 ∨ t.cause = 5)

/-- A FAULTED FXC executes nothing and its record is never overwritten: only reset leaves the
FAULTED state, and every other step keeps registers, name, record, text and reads (R151). -/
def Obligations.OnlyResetLeavesFaulted : Prop :=
  ∀ s t : State, s.run = .faulted → step s = .next t →
    (s.mover ≠ .reset → t.run = .faulted ∧ t.cause = s.cause ∧ t.finfo = s.finfo ∧
      t.faddr = s.faddr ∧ t.x = s.x ∧ t.name0 = s.name0 ∧ t.name1 = s.name1 ∧ t.txt = s.txt ∧
      t.reads = s.reads) ∧
    (s.mover = .reset → t.run = .idle ∧ t.cause = 0 ∧ t.finfo = 0 ∧ t.faddr = 0)

/-- Reset in any run state: IDLE with `x0`..`x7`, `NAME`, `CAUSE`, `FINFO`, `FADDR` and `STATUS`
zero, no command in flight and nothing queued for the text port, `TXT` and memory unchanged; nothing
runs after it of itself (R171). -/
def Obligations.ResetClearsTheCore : Prop :=
  ∀ s : State, s.mover = .reset → ∃ t, step s = .next t ∧ t.run = .idle ∧ statusWord t.run = 0 ∧
    (∀ r, t.x.get r = 0) ∧ t.name0 = 0 ∧ t.name1 = 0 ∧ t.cause = 0 ∧ t.finfo = 0 ∧ t.faddr = 0 ∧
    t.txq = [] ∧ t.txt = s.txt ∧ t.mem = s.mem ∧ (t.sched = [] → t.host = [] → step t = .next t)

/-- The state right after reset holds the values of the table of R40 (its hidden registers, which
R40 leaves unspecified, are not part of the statement). -/
def Obligations.ResetStateIsTheSpecs : Prop :=
  (∀ r, State.reset.x.get r = 0) ∧ State.reset.name0 = 0 ∧ State.reset.name1 = 0 ∧
  State.reset.run = .idle ∧ statusWord State.reset.run = 0 ∧ State.reset.cause = 0 ∧
  State.reset.finfo = 0 ∧ State.reset.faddr = 0 ∧ State.reset.txq = []

/-- A reset asserted after `j` core steps of an `RVAL` leaves exactly the first `j` bytes of its
line in `TXT`, the rest never emitted, and the FXC IDLE with its registers cleared (R172). The
schedule and one byte a step are the model's (log 3, log 5). -/
def Obligations.ResetCutsTheTextAtAnyByte : Prop :=
  ∀ (f : QFormat) (rs1 : Reg) (s : State) (j : ℕ), f.valid = true →
    s.sched = List.replicate j .core ++ [.reset] →
    ∃ t u, exec (.rval f rs1) s = .next t ∧ runSteps (j + 1) t = .next u ∧
      u.txt = s.txt ++
        (valueLine f s.name0 s.name1 ((s.x.get rs1).setWidth f.w.bits).toInt).take j ∧
      u.run = .idle ∧ u.txq = [] ∧ (∀ r, u.x.get r = 0)

/-- While a command runs, the registers, `NAME`, the command word, the format, `BASE` and `STOP`
cannot change except by reset (R32, R35, R176). At the step that ends the command this is the
model's for the hidden registers (log 22). -/
def Obligations.BusyKeepsOperands : Prop :=
  ∀ (s t : State) (p : Phase), s.run = .busy p → s.mover ≠ .reset → step s = .next t →
    t.x = s.x ∧ t.name0 = s.name0 ∧ t.name1 = s.name1 ∧ t.cmd = s.cmd ∧ t.fmt = s.fmt ∧
    t.base = s.base ∧ t.stop = s.stop

/-- The FXC only reads the data memory: a step changes it only if another agent moves, and then at
that agent's one byte (R50, R61). That another agent acts by moves of its own is the model's (log 3,
log 14). -/
def Obligations.OnlyOtherAgentsChangeMemory : Prop :=
  ∀ s t : State, step s = .next t →
    ((∀ a b, s.mover ≠ .poke a b) → t.mem = s.mem) ∧
    (∀ a b, s.mover = .poke a b →
      ∀ k, memByte t.mem k = if k = a.toNat then b else memByte s.mem k)

/-- A memory request is made only by an element step of a running `RELT` or `RRNG`, one a step, of
exactly `W/8` bytes at the aligned in-range element address, and no byte is emitted in that step
(R51, R57, R60). The record of requests is the model's (log 12). -/
def Obligations.OnlyElementStepsReadMemory : Prop :=
  ∀ s t : State, step s = .next t → t.reads = s.reads ∨
    (s.mover = .core ∧ (s.run = .busy .elementOne ∨ s.run = .busy .elementRange) ∧
      t.reads = s.reads ++ [⟨elementAddr s.base s.idx s.fmt.w, s.fmt.w.bits / 8⟩] ∧
      elementAddr s.base s.idx s.fmt.w % (s.fmt.w.bits / 8) = 0 ∧
      elementAddr s.base s.idx s.fmt.w + s.fmt.w.bits / 8 ≤ 2 ^ 64 ∧ t.txt = s.txt)

/-- `TXT` is append-only: a step leaves it or appends the one byte at the head of the text port, and
only a running command does (R36, R66). One byte a step is the model's (log 5). -/
def Obligations.TextGrowsByOneByte : Prop :=
  ∀ s t : State, step s = .next t → t.txt = s.txt ∨
    (s.mover = .core ∧ (s.run = .busy .rangeLine ∨ s.run = .busy .finalText) ∧
      ∃ b l, s.txq = b :: l ∧ t.txt = s.txt ++ [b])

/-- `MemRead(addr, n)` is the little-endian sum of the bytes when all of them are mapped, and fails
when any is not (R52, R56). -/
def Obligations.MemReadIsLittleEndian : Prop :=
  ∀ (m : List Host.Cell) (addr n : ℕ),
    (∀ byte : ℕ → Byte, (∀ k, k < n → memByte m (addr + k) = some (byte k)) →
      memRead m addr n = some (∑ k ∈ Finset.range n, (byte k).toNat * 2 ^ (8 * k))) ∧
    ((∃ k, k < n ∧ memByte m (addr + k) = none) → memRead m addr n = none)

/-- The elements of an array are all aligned or none is: `EA mod (W/8) = 0` exactly when `base mod
(W/8) = 0`, and for W = 8 always (R53, R54). -/
def Obligations.AlignmentDependsOnBaseOnly : Prop :=
  ∀ (base idx : Word) (w : Width),
    elementAddr base idx w = base.toNat + idx.toNat * (w.bits / 8) ∧
    (elementAddr base idx w % (w.bits / 8) = 0 ↔ base.toNat % (w.bits / 8) = 0) ∧
    elementAddr base idx .w8 % 1 = 0

/-- An accepted command completes or faults within a bounded number of steps when memory and sink
answer: from any BUSY state that meets the invariant, with nothing else scheduled (R178). The bound
counts the model's steps, one byte a step (log 3, log 5). -/
def Obligations.RunningCommandTerminates : Prop :=
  ∀ (s : State) (p : Phase), s.Inv → s.sched = [] → s.run = .busy p →
    ∃ (k : ℕ) (t : State), k ≤ s.txq.length + 90 * (s.stop.toNat - s.idx.toNat + 1) + 100 ∧
      runSteps k s = .next t ∧ (t.run = .idle ∨ t.run = .faulted)
end

