-- ==== Sys2Proof/Laws/Decode.lean ====
section
/-! SUPPORT. The fields of an encoded word, and the words of decoded fields (30_encoding.md R71). -/

namespace Sys2Proof

theorem regOfBits_regBits (r : Reg) : regOfBits (regBits r) = r := by cases r <;> rfl

theorem regBits_regOfBits (b : BitVec 3) : regBits (regOfBits b) = b := by
  revert b; decide

theorem widthOfBits_widthBits (w : Width) : widthOfBits (widthBits w) = w := by cases w <;> rfl

theorem widthBits_widthOfBits (b : BitVec 2) : widthBits (widthOfBits b) = b := by
  revert b; decide

section Fields

variable (op : BitVec 4) (e b a d : BitVec 3) (f : QFormat)

/-- The integer formula of R71 fits 32 bits. -/
theorem encodeFields_toNat :
    (encodeFields op e b a d f).toNat = op.toNat * 2 ^ 28 + e.toNat * 2 ^ 17 + b.toNat * 2 ^ 14
      + a.toNat * 2 ^ 11 + d.toNat * 2 ^ 8 + (widthBits f.w).toNat * 2 ^ 6 + f.n.toNat := by
  have := op.isLt; have := e.isLt; have := b.isLt; have := a.isLt; have := d.isLt
  have := (widthBits f.w).isLt; have := f.n.isLt
  simp only [encodeFields, BitVec.toNat_ofNat]
  omega

/-- A slice of a word as a number. -/
theorem extract_toNat (c : Cmd) (i k : Nat) :
    (c.extractLsb' i k).toNat = c.toNat / 2 ^ i % 2 ^ k := by
  simp [BitVec.extractLsb'_toNat, Nat.shiftRight_eq_div_pow]

theorem opOf_encodeFields : opOf (encodeFields op e b a d f) = op := by
  apply BitVec.eq_of_toNat_eq
  have := op.isLt; have := e.isLt; have := b.isLt; have := a.isLt; have := d.isLt
  have := (widthBits f.w).isLt; have := f.n.isLt
  rw [opOf, extract_toNat, encodeFields_toNat]; omega

theorem zOf_encodeFields : zOf (encodeFields op e b a d f) = 0 := by
  apply BitVec.eq_of_toNat_eq
  have := op.isLt; have := e.isLt; have := b.isLt; have := a.isLt; have := d.isLt
  have := (widthBits f.w).isLt; have := f.n.isLt
  rw [zOf, extract_toNat, encodeFields_toNat]
  show _ = 0
  omega

theorem rs3Of_encodeFields : rs3Of (encodeFields op e b a d f) = e := by
  apply BitVec.eq_of_toNat_eq
  have := op.isLt; have := e.isLt; have := b.isLt; have := a.isLt; have := d.isLt
  have := (widthBits f.w).isLt; have := f.n.isLt
  rw [rs3Of, extract_toNat, encodeFields_toNat]; omega

theorem rs2Of_encodeFields : rs2Of (encodeFields op e b a d f) = b := by
  apply BitVec.eq_of_toNat_eq
  have := op.isLt; have := e.isLt; have := b.isLt; have := a.isLt; have := d.isLt
  have := (widthBits f.w).isLt; have := f.n.isLt
  rw [rs2Of, extract_toNat, encodeFields_toNat]; omega

theorem rs1Of_encodeFields : rs1Of (encodeFields op e b a d f) = a := by
  apply BitVec.eq_of_toNat_eq
  have := op.isLt; have := e.isLt; have := b.isLt; have := a.isLt; have := d.isLt
  have := (widthBits f.w).isLt; have := f.n.isLt
  rw [rs1Of, extract_toNat, encodeFields_toNat]; omega

theorem rdOf_encodeFields : rdOf (encodeFields op e b a d f) = d := by
  apply BitVec.eq_of_toNat_eq
  have := op.isLt; have := e.isLt; have := b.isLt; have := a.isLt; have := d.isLt
  have := (widthBits f.w).isLt; have := f.n.isLt
  rw [rdOf, extract_toNat, encodeFields_toNat]; omega

theorem formatOf_encodeFields : formatOf (encodeFields op e b a d f) = f := by
  have := op.isLt; have := e.isLt; have := b.isLt; have := a.isLt; have := d.isLt
  have := (widthBits f.w).isLt; have := f.n.isLt
  have hw : wsOf (encodeFields op e b a d f) = widthBits f.w := by
    apply BitVec.eq_of_toNat_eq
    rw [wsOf, extract_toNat, encodeFields_toNat]; omega
  have hn : nOf (encodeFields op e b a d f) = f.n := by
    apply BitVec.eq_of_toNat_eq
    rw [nOf, extract_toNat, encodeFields_toNat]; omega
  rw [formatOf, hw, hn, widthOfBits_widthBits]

end Fields

/-- A word whose `z` is zero is the encoding of its own fields (R71). -/
theorem encodeFields_of_fields (c : Cmd) (hz : zOf c = 0) :
    encodeFields (opOf c) (rs3Of c) (rs2Of c) (rs1Of c) (rdOf c) (formatOf c) = c := by
  apply BitVec.eq_of_toNat_eq
  have hz' : (zOf c).toNat = 0 := by rw [hz]; rfl
  have := c.isLt
  rw [encodeFields_toNat]
  simp only [formatOf, widthBits_widthOfBits]
  rw [zOf, extract_toNat] at hz'
  simp only [opOf, rs3Of, rs2Of, rs1Of, rdOf, wsOf, nOf, extract_toNat]
  omega

/-- Two words with the same eight fields are equal (R71). -/
theorem cmd_ext {c c' : Cmd} (ho : opOf c = opOf c') (hz : zOf c = zOf c') (h3 : rs3Of c = rs3Of c')
    (h2 : rs2Of c = rs2Of c') (h1 : rs1Of c = rs1Of c') (hd : rdOf c = rdOf c')
    (hw : wsOf c = wsOf c') (hn : nOf c = nOf c') : c = c' := by
  have hnat : ∀ {i k : Nat}, c.extractLsb' i k = c'.extractLsb' i k →
      c.toNat / 2 ^ i % 2 ^ k = c'.toNat / 2 ^ i % 2 ^ k := by
    intro i k h
    rw [← extract_toNat, ← extract_toNat, h]
  have ho := hnat ho; have hz := hnat hz; have h3 := hnat h3; have h2 := hnat h2
  have h1 := hnat h1; have hd := hnat hd; have hw := hnat hw; have hn := hnat hn
  have := c.isLt; have := c'.isLt
  apply BitVec.eq_of_toNat_eq
  omega

/-- A slice of a masked word is the masked slice. -/
theorem extract_and (c m : Cmd) (i k : Nat) :
    (c &&& m).extractLsb' i k = c.extractLsb' i k &&& m.extractLsb' i k := by
  apply BitVec.eq_of_getLsbD_eq
  intro j hj
  simp [ hj]

/-- A masked word equals a pattern exactly when each of its eight fields does. -/
theorem and_eq_iff_fields (c m p : Cmd) : c &&& m = p ↔
    opOf c &&& opOf m = opOf p ∧ zOf c &&& zOf m = zOf p ∧ rs3Of c &&& rs3Of m = rs3Of p ∧
    rs2Of c &&& rs2Of m = rs2Of p ∧ rs1Of c &&& rs1Of m = rs1Of p ∧ rdOf c &&& rdOf m = rdOf p ∧
    wsOf c &&& wsOf m = wsOf p ∧ nOf c &&& nOf m = nOf p := by
  simp only [opOf, zOf, rs3Of, rs2Of, rs1Of, rdOf, wsOf, nOf, ← extract_and]
  constructor
  · rintro rfl
    exact ⟨rfl, rfl, rfl, rfl, rfl, rfl, rfl, rfl⟩
  · rintro ⟨ho, hz, h3, h2, h1, hd, hw, hn⟩
    exact cmd_ext ho hz h3 h2 h1 hd hw hn

/-- The word of an instruction has the fields it was built from, read through any mask whose `ws`
and `n` bits are zero (R75). -/
theorem encodeFields_and (op : BitVec 4) (e b a d : BitVec 3) (f : QFormat) (m p : Cmd)
    (ho : op &&& opOf m = opOf p) (hz : zOf p = 0) (h3 : e &&& rs3Of m = rs3Of p)
    (h2 : b &&& rs2Of m = rs2Of p) (h1 : a &&& rs1Of m = rs1Of p) (hd : d &&& rdOf m = rdOf p)
    (hw : wsOf m = 0) (hn : nOf m = 0) (hpw : wsOf p = 0) (hpn : nOf p = 0) :
    encodeFields op e b a d f &&& m = p := by
  rw [and_eq_iff_fields, opOf_encodeFields, zOf_encodeFields, rs3Of_encodeFields, rs2Of_encodeFields,
    rs1Of_encodeFields, rdOf_encodeFields, hw, hn, hpw, hpn, hz]
  simp [ho, h3, h2, h1, hd]

end Sys2Proof
end

