-- ==== Sys2Proof/Laws/Memory.lean ====
section
/-! SUPPORT. The data memory: read after write, and every operation keeps the canonical form. -/

namespace Sys2Proof.Machine

/-- The canonical form as a proposition. -/
theorem memory_wf_iff (m : List Host.Cell) : Memory.wf m = true ↔
    m.Pairwise (fun p q => p.1 < q.1) ∧ ∀ p ∈ m, p.1 < 2 ^ 64 := by
  simp [Memory.wf, List.all_eq_true]

/-- Every entry of a stored-to memory is the new one or an old one. -/
theorem mem_memSet {m : List Host.Cell} {k : Nat} {v : Byte} {p : Host.Cell}
    (h : p ∈ memSet m k v) : p = (k, v) ∨ p ∈ m := by
  induction m with
  | nil => simpa [memSet] using h
  | cons q m ih =>
    simp only [memSet] at h
    split_ifs at h with h1 h2
    · simpa using h
    · rcases List.mem_cons.1 h with h | h
      · exact .inl h
      · exact .inr (List.mem_cons_of_mem _ h)
    · rcases List.mem_cons.1 h with h | h
      · exact .inr (by simp [h])
      · exact (ih h).imp id (List.mem_cons_of_mem _)

/-- Every entry left after unmapping was there before. -/
theorem mem_memUnmap {m : List Host.Cell} {k : Nat} {p : Host.Cell} (h : p ∈ memUnmap m k) :
    p ∈ m := by
  induction m with
  | nil => simp [memUnmap] at h
  | cons q m ih =>
    simp only [memUnmap] at h
    split_ifs at h
    · exact List.mem_cons_of_mem _ (ih h)
    · rcases List.mem_cons.1 h with h | h
      · simp [h]
      · exact List.mem_cons_of_mem _ (ih h)

theorem memSet_pairwise {m : List Host.Cell} (k : Nat) (v : Byte)
    (h : m.Pairwise (fun p q => p.1 < q.1)) : (memSet m k v).Pairwise (fun p q => p.1 < q.1) := by
  induction m with
  | nil => simp [memSet]
  | cons q m ih =>
    rw [List.pairwise_cons] at h
    simp only [memSet]
    split_ifs with h1 h2
    · refine List.pairwise_cons.2 ⟨?_, List.pairwise_cons.2 h⟩
      intro p hp
      rcases List.mem_cons.1 hp with hp | hp
      · rw [hp]; exact h1
      · exact lt_trans h1 (h.1 p hp)
    · exact List.pairwise_cons.2 ⟨fun p hp => h2 ▸ h.1 p hp, h.2⟩
    · refine List.pairwise_cons.2 ⟨?_, ih h.2⟩
      intro p hp
      rcases mem_memSet hp with hp | hp
      · rw [hp]; exact lt_of_le_of_ne (not_lt.1 h1) (Ne.symm h2)
      · exact h.1 p hp

theorem memUnmap_pairwise {m : List Host.Cell} (k : Nat)
    (h : m.Pairwise (fun p q => p.1 < q.1)) : (memUnmap m k).Pairwise (fun p q => p.1 < q.1) := by
  induction m with
  | nil => simp [memUnmap]
  | cons q m ih =>
    rw [List.pairwise_cons] at h
    simp only [memUnmap]
    split_ifs
    · exact ih h.2
    · exact List.pairwise_cons.2 ⟨fun p hp => h.1 p (mem_memUnmap hp), ih h.2⟩

/-- The one operation that changes memory keeps the canonical form. -/
theorem memPoke_wf {m : List Host.Cell} (a : Word) (b : Option Byte) (h : Memory.wf m = true) :
    Memory.wf (memPoke m a b) = true := by
  rw [memory_wf_iff] at h ⊢
  cases b with
  | none => exact ⟨memUnmap_pairwise _ h.1, fun p hp => h.2 p (mem_memUnmap hp)⟩
  | some v =>
    refine ⟨memSet_pairwise _ _ h.1, fun p hp => ?_⟩
    rcases mem_memSet hp with hp | hp
    · rw [hp]; exact a.isLt
    · exact h.2 p hp

theorem reset_mem_wf : Memory.wf State.reset.mem = true := by decide

/-- In a sorted memory a byte below the first entry is unmapped. -/
theorem memByte_eq_none_of_lt {m : List Host.Cell} {k : Nat} (h : ∀ p ∈ m, k < p.1) :
    memByte m k = none := by
  induction m with
  | nil => rfl
  | cons q m ih =>
    have hq : q.1 ≠ k := (h q (by simp)).ne'
    simp only [memByte, hq, if_false]
    exact ih fun p hp => h p (List.mem_cons_of_mem _ hp)

/-- The byte written reads as written. -/
theorem memByte_memSet_self (m : List Host.Cell) (k : Nat) (v : Byte) :
    memByte (memSet m k v) k = some v := by
  induction m with
  | nil => simp [memSet, memByte]
  | cons q m ih =>
    by_cases h1 : k < q.1
    · simp [memSet, memByte, h1]
    · by_cases h2 : k = q.1
      · simp [memSet, memByte, h2]
      · simp [memSet, memByte, h1, h2, Ne.symm h2, ih]

/-- Every other byte reads as before. -/
theorem memByte_memSet_ne (m : List Host.Cell) {k a : Nat} (v : Byte) (h : k ≠ a) :
    memByte (memSet m k v) a = memByte m a := by
  induction m with
  | nil => simp [memSet, memByte, h]
  | cons q m ih =>
    by_cases h1 : k < q.1
    · simp [memSet, memByte, h1, h]
    · by_cases h2 : k = q.1
      · have hq : q.1 ≠ a := h2 ▸ h
        simp [memSet, memByte, h2, hq]
      · simp [memSet, memByte, h1, h2, ih]

/-- An unmapped byte reads as unmapped. -/
theorem memByte_memUnmap_self (m : List Host.Cell) (k : Nat) : memByte (memUnmap m k) k = none := by
  induction m with
  | nil => rfl
  | cons q m ih =>
    by_cases h1 : q.1 = k
    · simp [memUnmap, h1, ih]
    · simp [memUnmap, memByte, h1, ih]

/-- Every other byte reads as before. -/
theorem memByte_memUnmap_ne (m : List Host.Cell) {k a : Nat} (h : k ≠ a) :
    memByte (memUnmap m k) a = memByte m a := by
  induction m with
  | nil => rfl
  | cons q m ih =>
    by_cases h1 : q.1 = k
    · simp [memUnmap, memByte, h1, h, ih]
    · simp [memUnmap, memByte, h1, ih]

/-- Read after a change by another agent. -/
theorem memByte_memPoke (m : List Host.Cell) (k : Word) (b : Option Byte) (a : Nat) :
    memByte (memPoke m k b) a = if a = k.toNat then b else memByte m a := by
  by_cases h : a = k.toNat
  · subst h
    cases b with
    | none => simpa [memPoke] using memByte_memUnmap_self m k.toNat
    | some v => simpa [memPoke] using memByte_memSet_self m k.toNat v
  · rw [if_neg h]
    cases b with
    | none => exact memByte_memUnmap_ne m (Ne.symm h)
    | some v => exact memByte_memSet_ne m v (Ne.symm h)

end Sys2Proof.Machine
end

