-- ==== Sys2Proof/Laws/PerInstr.lean ====
section
/-! SUPPORT. Statements made per instruction: the word of every instruction lies in its row of the
opcode table (30_encoding.md R75). -/

namespace Sys2Proof.Laws

/-- The encoded word of `i` satisfies `cmd AND mask = match` for its own row of R75. -/
def EncodeRow.Statement (i : Instr) : Prop :=
  encode i &&& (opcodeRow i).mask = (opcodeRow i).matchBits

theorem EncodeRow.scale (f : QFormat) (rd : Reg) : EncodeRow.Statement (.scale f rd) :=
  encodeFields_and 1 0 0 0 (regBits rd) f 0xFFFFF800 0x10000000 (by decide) (by decide)
    (by decide) (by decide) (by decide) (by cases rd <;> decide)
    (by decide) (by decide) (by decide) (by decide)

theorem EncodeRow.fixmax (f : QFormat) (rd : Reg) : EncodeRow.Statement (.fixmax f rd) :=
  encodeFields_and 2 0 0 0 (regBits rd) f 0xFFFFF800 0x20000000 (by decide) (by decide)
    (by decide) (by decide) (by decide) (by cases rd <;> decide)
    (by decide) (by decide) (by decide) (by decide)

theorem EncodeRow.fixmin (f : QFormat) (rd : Reg) : EncodeRow.Statement (.fixmin f rd) :=
  encodeFields_and 3 0 0 0 (regBits rd) f 0xFFFFF800 0x30000000 (by decide) (by decide)
    (by decide) (by decide) (by decide) (by cases rd <;> decide)
    (by decide) (by decide) (by decide) (by decide)

theorem EncodeRow.fltmax (f : QFormat) (rd : Reg) : EncodeRow.Statement (.fltmax f rd) :=
  encodeFields_and 4 0 0 0 (regBits rd) f 0xFFFFF800 0x40000000 (by decide) (by decide)
    (by decide) (by decide) (by decide) (by cases rd <;> decide)
    (by decide) (by decide) (by decide) (by decide)

theorem EncodeRow.fltmin (f : QFormat) (rd : Reg) : EncodeRow.Statement (.fltmin f rd) :=
  encodeFields_and 5 0 0 0 (regBits rd) f 0xFFFFF800 0x50000000 (by decide) (by decide)
    (by decide) (by decide) (by decide) (by cases rd <;> decide)
    (by decide) (by decide) (by decide) (by decide)

theorem EncodeRow.tofix (f : QFormat) (rd rs1 : Reg) : EncodeRow.Statement (.tofix f rd rs1) :=
  encodeFields_and 6 0 0 (regBits rs1) (regBits rd) f 0xFFFFC000 0x60000000 (by decide) (by decide)
    (by decide) (by decide) (by cases rs1 <;> decide) (by cases rd <;> decide)
    (by decide) (by decide) (by decide) (by decide)

theorem EncodeRow.toflt (f : QFormat) (rd rs1 : Reg) : EncodeRow.Statement (.toflt f rd rs1) :=
  encodeFields_and 7 0 0 (regBits rs1) (regBits rd) f 0xFFFFC000 0x70000000 (by decide) (by decide)
    (by decide) (by decide) (by cases rs1 <;> decide) (by cases rd <;> decide)
    (by decide) (by decide) (by decide) (by decide)

theorem EncodeRow.rval (f : QFormat) (rs1 : Reg) : EncodeRow.Statement (.rval f rs1) :=
  encodeFields_and 8 0 0 (regBits rs1) 0 f 0xFFFFC700 0x80000000 (by decide) (by decide)
    (by decide) (by decide) (by cases rs1 <;> decide) (by decide)
    (by decide) (by decide) (by decide) (by decide)

theorem EncodeRow.relt (f : QFormat) (rs1 rs2 : Reg) : EncodeRow.Statement (.relt f rs1 rs2) :=
  encodeFields_and 9 0 (regBits rs2) (regBits rs1) 0 f 0xFFFE0700 0x90000000 (by decide) (by decide)
    (by decide) (by cases rs2 <;> decide) (by cases rs1 <;> decide) (by decide)
    (by decide) (by decide) (by decide) (by decide)

theorem EncodeRow.rrng (f : QFormat) (rs1 rs2 rs3 : Reg) : EncodeRow.Statement (.rrng f rs1 rs2 rs3) :=
  encodeFields_and 10 (regBits rs3) (regBits rs2) (regBits rs1) 0 f 0xFFF00700 0xA0000000 (by decide) (by decide)
    (by cases rs3 <;> decide) (by cases rs2 <;> decide) (by cases rs1 <;> decide) (by decide)
    (by decide) (by decide) (by decide) (by decide)

end Sys2Proof.Laws
end

