-- ==== Sys2Proof/Laws/Regs.lean ====
section
/-! SUPPORT. Read after write for the register file (10_state.md R21). -/

namespace Sys2Proof.Machine

@[simp] theorem RegFile.get_set_self (x : RegFile) (r : Reg) (v : Word) : (x.set r v).get r = v := by
  cases r <;> rfl

theorem RegFile.get_set_ne (x : RegFile) {r q : Reg} (v : Word) (h : q ≠ r) :
    (x.set r v).get q = x.get q := by
  cases r <;> cases q <;> first | rfl | exact absurd rfl h

/-- Two register files that agree register by register are equal. -/
theorem RegFile.ext_get {x y : RegFile} (h : ∀ r, x.get r = y.get r) : x = y := by
  cases x; cases y
  simp only [RegFile.mk.injEq]
  exact ⟨h .x0, h .x1, h .x2, h .x3, h .x4, h .x5, h .x6, h .x7⟩

@[simp] theorem State.getReg_setReg_self (s : State) (r : Reg) (v : Word) :
    (s.setReg r v).getReg r = v := RegFile.get_set_self _ _ _

theorem State.getReg_setReg_ne (s : State) {r q : Reg} (v : Word) (h : q ≠ r) :
    (s.setReg r v).getReg q = s.getReg q := RegFile.get_set_ne _ _ h

end Sys2Proof.Machine
end

