-- ==== Sys2Proof/Laws/State.lean ====
section
/-! SUPPORT. One lemma per field per state update, so that no later proof unfolds a record
update. -/

namespace Sys2Proof.Machine

variable (s : State)

/-! ### `setReg` -/

@[simp] theorem State.setReg_x (r : Reg) (v : Word) : (s.setReg r v).x = s.x.set r v := rfl
@[simp] theorem State.setReg_name0 (r : Reg) (v : Word) : (s.setReg r v).name0 = s.name0 := rfl
@[simp] theorem State.setReg_name1 (r : Reg) (v : Word) : (s.setReg r v).name1 = s.name1 := rfl
@[simp] theorem State.setReg_run (r : Reg) (v : Word) : (s.setReg r v).run = s.run := rfl
@[simp] theorem State.setReg_cause (r : Reg) (v : Word) : (s.setReg r v).cause = s.cause := rfl
@[simp] theorem State.setReg_finfo (r : Reg) (v : Word) : (s.setReg r v).finfo = s.finfo := rfl
@[simp] theorem State.setReg_faddr (r : Reg) (v : Word) : (s.setReg r v).faddr = s.faddr := rfl
@[simp] theorem State.setReg_cmd (r : Reg) (v : Word) : (s.setReg r v).cmd = s.cmd := rfl
@[simp] theorem State.setReg_fmt (r : Reg) (v : Word) : (s.setReg r v).fmt = s.fmt := rfl
@[simp] theorem State.setReg_base (r : Reg) (v : Word) : (s.setReg r v).base = s.base := rfl
@[simp] theorem State.setReg_stop (r : Reg) (v : Word) : (s.setReg r v).stop = s.stop := rfl
@[simp] theorem State.setReg_idx (r : Reg) (v : Word) : (s.setReg r v).idx = s.idx := rfl
@[simp] theorem State.setReg_txq (r : Reg) (v : Word) : (s.setReg r v).txq = s.txq := rfl
@[simp] theorem State.setReg_txt (r : Reg) (v : Word) : (s.setReg r v).txt = s.txt := rfl
@[simp] theorem State.setReg_mem (r : Reg) (v : Word) : (s.setReg r v).mem = s.mem := rfl
@[simp] theorem State.setReg_reads (r : Reg) (v : Word) : (s.setReg r v).reads = s.reads := rfl
@[simp] theorem State.setReg_host (r : Reg) (v : Word) : (s.setReg r v).host = s.host := rfl
@[simp] theorem State.setReg_held (r : Reg) (v : Word) : (s.setReg r v).held = s.held := rfl
@[simp] theorem State.setReg_rdata (r : Reg) (v : Word) : (s.setReg r v).rdata = s.rdata := rfl
@[simp] theorem State.setReg_sched (r : Reg) (v : Word) : (s.setReg r v).sched = s.sched := rfl

/-! ### `raise` -/

@[simp] theorem State.raise_x (f : FaultCause) (a : Word) : (s.raise f a).x = s.x := rfl
@[simp] theorem State.raise_name0 (f : FaultCause) (a : Word) : (s.raise f a).name0 = s.name0 := rfl
@[simp] theorem State.raise_name1 (f : FaultCause) (a : Word) : (s.raise f a).name1 = s.name1 := rfl
@[simp] theorem State.raise_run (f : FaultCause) (a : Word) : (s.raise f a).run = .faulted := rfl
@[simp] theorem State.raise_cause (f : FaultCause) (a : Word) : (s.raise f a).cause = faultCode f := rfl
@[simp] theorem State.raise_finfo (f : FaultCause) (a : Word) : (s.raise f a).finfo = s.cmd.setWidth 64 := rfl
@[simp] theorem State.raise_faddr (f : FaultCause) (a : Word) : (s.raise f a).faddr = faultAddr f a := rfl
@[simp] theorem State.raise_cmd (f : FaultCause) (a : Word) : (s.raise f a).cmd = s.cmd := rfl
@[simp] theorem State.raise_fmt (f : FaultCause) (a : Word) : (s.raise f a).fmt = s.fmt := rfl
@[simp] theorem State.raise_base (f : FaultCause) (a : Word) : (s.raise f a).base = s.base := rfl
@[simp] theorem State.raise_stop (f : FaultCause) (a : Word) : (s.raise f a).stop = s.stop := rfl
@[simp] theorem State.raise_idx (f : FaultCause) (a : Word) : (s.raise f a).idx = s.idx := rfl
@[simp] theorem State.raise_txq (f : FaultCause) (a : Word) : (s.raise f a).txq = s.txq := rfl
@[simp] theorem State.raise_txt (f : FaultCause) (a : Word) : (s.raise f a).txt = s.txt := rfl
@[simp] theorem State.raise_mem (f : FaultCause) (a : Word) : (s.raise f a).mem = s.mem := rfl
@[simp] theorem State.raise_reads (f : FaultCause) (a : Word) : (s.raise f a).reads = s.reads := rfl
@[simp] theorem State.raise_host (f : FaultCause) (a : Word) : (s.raise f a).host = s.host := rfl
@[simp] theorem State.raise_held (f : FaultCause) (a : Word) : (s.raise f a).held = s.held := rfl
@[simp] theorem State.raise_rdata (f : FaultCause) (a : Word) : (s.raise f a).rdata = s.rdata := rfl
@[simp] theorem State.raise_sched (f : FaultCause) (a : Word) : (s.raise f a).sched = s.sched := rfl

/-! ### `latch` -/

@[simp] theorem State.latch_x (c : Cmd) : (s.latch c).x = s.x := rfl
@[simp] theorem State.latch_name0 (c : Cmd) : (s.latch c).name0 = s.name0 := rfl
@[simp] theorem State.latch_name1 (c : Cmd) : (s.latch c).name1 = s.name1 := rfl
@[simp] theorem State.latch_run (c : Cmd) : (s.latch c).run = s.run := rfl
@[simp] theorem State.latch_cause (c : Cmd) : (s.latch c).cause = s.cause := rfl
@[simp] theorem State.latch_finfo (c : Cmd) : (s.latch c).finfo = s.finfo := rfl
@[simp] theorem State.latch_faddr (c : Cmd) : (s.latch c).faddr = s.faddr := rfl
@[simp] theorem State.latch_cmd (c : Cmd) : (s.latch c).cmd = c := rfl
@[simp] theorem State.latch_fmt (c : Cmd) : (s.latch c).fmt = s.fmt := rfl
@[simp] theorem State.latch_base (c : Cmd) : (s.latch c).base = s.base := rfl
@[simp] theorem State.latch_stop (c : Cmd) : (s.latch c).stop = s.stop := rfl
@[simp] theorem State.latch_idx (c : Cmd) : (s.latch c).idx = s.idx := rfl
@[simp] theorem State.latch_txq (c : Cmd) : (s.latch c).txq = s.txq := rfl
@[simp] theorem State.latch_txt (c : Cmd) : (s.latch c).txt = s.txt := rfl
@[simp] theorem State.latch_mem (c : Cmd) : (s.latch c).mem = s.mem := rfl
@[simp] theorem State.latch_reads (c : Cmd) : (s.latch c).reads = s.reads := rfl
@[simp] theorem State.latch_host (c : Cmd) : (s.latch c).host = s.host := rfl
@[simp] theorem State.latch_held (c : Cmd) : (s.latch c).held = s.held := rfl
@[simp] theorem State.latch_rdata (c : Cmd) : (s.latch c).rdata = s.rdata := rfl
@[simp] theorem State.latch_sched (c : Cmd) : (s.latch c).sched = s.sched := rfl

/-! ### `complete` -/

@[simp] theorem State.complete_x : s.complete.x = s.x := rfl
@[simp] theorem State.complete_name0 : s.complete.name0 = s.name0 := rfl
@[simp] theorem State.complete_name1 : s.complete.name1 = s.name1 := rfl
@[simp] theorem State.complete_run : s.complete.run = .idle := rfl
@[simp] theorem State.complete_cause : s.complete.cause = s.cause := rfl
@[simp] theorem State.complete_finfo : s.complete.finfo = s.finfo := rfl
@[simp] theorem State.complete_faddr : s.complete.faddr = s.faddr := rfl
@[simp] theorem State.complete_cmd : s.complete.cmd = s.cmd := rfl
@[simp] theorem State.complete_fmt : s.complete.fmt = s.fmt := rfl
@[simp] theorem State.complete_base : s.complete.base = s.base := rfl
@[simp] theorem State.complete_stop : s.complete.stop = s.stop := rfl
@[simp] theorem State.complete_idx : s.complete.idx = s.idx := rfl
@[simp] theorem State.complete_txq : s.complete.txq = s.txq := rfl
@[simp] theorem State.complete_txt : s.complete.txt = s.txt := rfl
@[simp] theorem State.complete_mem : s.complete.mem = s.mem := rfl
@[simp] theorem State.complete_reads : s.complete.reads = s.reads := rfl
@[simp] theorem State.complete_host : s.complete.host = s.host := rfl
@[simp] theorem State.complete_held : s.complete.held = s.held := rfl
@[simp] theorem State.complete_rdata : s.complete.rdata = s.rdata := rfl
@[simp] theorem State.complete_sched : s.complete.sched = s.sched := rfl

/-! ### `startText` -/

@[simp] theorem State.startText_x (l : List Byte) (p : Phase) : (s.startText l p).x = s.x := rfl
@[simp] theorem State.startText_name0 (l : List Byte) (p : Phase) : (s.startText l p).name0 = s.name0 := rfl
@[simp] theorem State.startText_name1 (l : List Byte) (p : Phase) : (s.startText l p).name1 = s.name1 := rfl
@[simp] theorem State.startText_run (l : List Byte) (p : Phase) : (s.startText l p).run = .busy p := rfl
@[simp] theorem State.startText_cause (l : List Byte) (p : Phase) : (s.startText l p).cause = s.cause := rfl
@[simp] theorem State.startText_finfo (l : List Byte) (p : Phase) : (s.startText l p).finfo = s.finfo := rfl
@[simp] theorem State.startText_faddr (l : List Byte) (p : Phase) : (s.startText l p).faddr = s.faddr := rfl
@[simp] theorem State.startText_cmd (l : List Byte) (p : Phase) : (s.startText l p).cmd = s.cmd := rfl
@[simp] theorem State.startText_fmt (l : List Byte) (p : Phase) : (s.startText l p).fmt = s.fmt := rfl
@[simp] theorem State.startText_base (l : List Byte) (p : Phase) : (s.startText l p).base = s.base := rfl
@[simp] theorem State.startText_stop (l : List Byte) (p : Phase) : (s.startText l p).stop = s.stop := rfl
@[simp] theorem State.startText_idx (l : List Byte) (p : Phase) : (s.startText l p).idx = s.idx := rfl
@[simp] theorem State.startText_txq (l : List Byte) (p : Phase) : (s.startText l p).txq = l := rfl
@[simp] theorem State.startText_txt (l : List Byte) (p : Phase) : (s.startText l p).txt = s.txt := rfl
@[simp] theorem State.startText_mem (l : List Byte) (p : Phase) : (s.startText l p).mem = s.mem := rfl
@[simp] theorem State.startText_reads (l : List Byte) (p : Phase) : (s.startText l p).reads = s.reads := rfl
@[simp] theorem State.startText_host (l : List Byte) (p : Phase) : (s.startText l p).host = s.host := rfl
@[simp] theorem State.startText_held (l : List Byte) (p : Phase) : (s.startText l p).held = s.held := rfl
@[simp] theorem State.startText_rdata (l : List Byte) (p : Phase) : (s.startText l p).rdata = s.rdata := rfl
@[simp] theorem State.startText_sched (l : List Byte) (p : Phase) : (s.startText l p).sched = s.sched := rfl

/-! ### `handByte` -/

@[simp] theorem State.handByte_x (b : Byte) (l : List Byte) : (s.handByte b l).x = s.x := rfl
@[simp] theorem State.handByte_name0 (b : Byte) (l : List Byte) : (s.handByte b l).name0 = s.name0 := rfl
@[simp] theorem State.handByte_name1 (b : Byte) (l : List Byte) : (s.handByte b l).name1 = s.name1 := rfl
@[simp] theorem State.handByte_run (b : Byte) (l : List Byte) : (s.handByte b l).run = s.run := rfl
@[simp] theorem State.handByte_cause (b : Byte) (l : List Byte) : (s.handByte b l).cause = s.cause := rfl
@[simp] theorem State.handByte_finfo (b : Byte) (l : List Byte) : (s.handByte b l).finfo = s.finfo := rfl
@[simp] theorem State.handByte_faddr (b : Byte) (l : List Byte) : (s.handByte b l).faddr = s.faddr := rfl
@[simp] theorem State.handByte_cmd (b : Byte) (l : List Byte) : (s.handByte b l).cmd = s.cmd := rfl
@[simp] theorem State.handByte_fmt (b : Byte) (l : List Byte) : (s.handByte b l).fmt = s.fmt := rfl
@[simp] theorem State.handByte_base (b : Byte) (l : List Byte) : (s.handByte b l).base = s.base := rfl
@[simp] theorem State.handByte_stop (b : Byte) (l : List Byte) : (s.handByte b l).stop = s.stop := rfl
@[simp] theorem State.handByte_idx (b : Byte) (l : List Byte) : (s.handByte b l).idx = s.idx := rfl
@[simp] theorem State.handByte_txq (b : Byte) (l : List Byte) : (s.handByte b l).txq = l := rfl
@[simp] theorem State.handByte_txt (b : Byte) (l : List Byte) : (s.handByte b l).txt = s.txt ++ [b] := rfl
@[simp] theorem State.handByte_mem (b : Byte) (l : List Byte) : (s.handByte b l).mem = s.mem := rfl
@[simp] theorem State.handByte_reads (b : Byte) (l : List Byte) : (s.handByte b l).reads = s.reads := rfl
@[simp] theorem State.handByte_host (b : Byte) (l : List Byte) : (s.handByte b l).host = s.host := rfl
@[simp] theorem State.handByte_held (b : Byte) (l : List Byte) : (s.handByte b l).held = s.held := rfl
@[simp] theorem State.handByte_rdata (b : Byte) (l : List Byte) : (s.handByte b l).rdata = s.rdata := rfl
@[simp] theorem State.handByte_sched (b : Byte) (l : List Byte) : (s.handByte b l).sched = s.sched := rfl

/-! ### `loadElement` -/

@[simp] theorem State.loadElement_x (f : QFormat) (a i : Word) : (s.loadElement f a i).x = s.x := rfl
@[simp] theorem State.loadElement_name0 (f : QFormat) (a i : Word) : (s.loadElement f a i).name0 = s.name0 := rfl
@[simp] theorem State.loadElement_name1 (f : QFormat) (a i : Word) : (s.loadElement f a i).name1 = s.name1 := rfl
@[simp] theorem State.loadElement_run (f : QFormat) (a i : Word) : (s.loadElement f a i).run = .busy .elementOne := rfl
@[simp] theorem State.loadElement_cause (f : QFormat) (a i : Word) : (s.loadElement f a i).cause = s.cause := rfl
@[simp] theorem State.loadElement_finfo (f : QFormat) (a i : Word) : (s.loadElement f a i).finfo = s.finfo := rfl
@[simp] theorem State.loadElement_faddr (f : QFormat) (a i : Word) : (s.loadElement f a i).faddr = s.faddr := rfl
@[simp] theorem State.loadElement_cmd (f : QFormat) (a i : Word) : (s.loadElement f a i).cmd = s.cmd := rfl
@[simp] theorem State.loadElement_fmt (f : QFormat) (a i : Word) : (s.loadElement f a i).fmt = f := rfl
@[simp] theorem State.loadElement_base (f : QFormat) (a i : Word) : (s.loadElement f a i).base = a := rfl
@[simp] theorem State.loadElement_stop (f : QFormat) (a i : Word) : (s.loadElement f a i).stop = s.stop := rfl
@[simp] theorem State.loadElement_idx (f : QFormat) (a i : Word) : (s.loadElement f a i).idx = i := rfl
@[simp] theorem State.loadElement_txq (f : QFormat) (a i : Word) : (s.loadElement f a i).txq = s.txq := rfl
@[simp] theorem State.loadElement_txt (f : QFormat) (a i : Word) : (s.loadElement f a i).txt = s.txt := rfl
@[simp] theorem State.loadElement_mem (f : QFormat) (a i : Word) : (s.loadElement f a i).mem = s.mem := rfl
@[simp] theorem State.loadElement_reads (f : QFormat) (a i : Word) : (s.loadElement f a i).reads = s.reads := rfl
@[simp] theorem State.loadElement_host (f : QFormat) (a i : Word) : (s.loadElement f a i).host = s.host := rfl
@[simp] theorem State.loadElement_held (f : QFormat) (a i : Word) : (s.loadElement f a i).held = s.held := rfl
@[simp] theorem State.loadElement_rdata (f : QFormat) (a i : Word) : (s.loadElement f a i).rdata = s.rdata := rfl
@[simp] theorem State.loadElement_sched (f : QFormat) (a i : Word) : (s.loadElement f a i).sched = s.sched := rfl

/-! ### `loadRange` -/

@[simp] theorem State.loadRange_x (f : QFormat) (a i e : Word) : (s.loadRange f a i e).x = s.x := rfl
@[simp] theorem State.loadRange_name0 (f : QFormat) (a i e : Word) : (s.loadRange f a i e).name0 = s.name0 := rfl
@[simp] theorem State.loadRange_name1 (f : QFormat) (a i e : Word) : (s.loadRange f a i e).name1 = s.name1 := rfl
@[simp] theorem State.loadRange_run (f : QFormat) (a i e : Word) : (s.loadRange f a i e).run = .busy .elementRange := rfl
@[simp] theorem State.loadRange_cause (f : QFormat) (a i e : Word) : (s.loadRange f a i e).cause = s.cause := rfl
@[simp] theorem State.loadRange_finfo (f : QFormat) (a i e : Word) : (s.loadRange f a i e).finfo = s.finfo := rfl
@[simp] theorem State.loadRange_faddr (f : QFormat) (a i e : Word) : (s.loadRange f a i e).faddr = s.faddr := rfl
@[simp] theorem State.loadRange_cmd (f : QFormat) (a i e : Word) : (s.loadRange f a i e).cmd = s.cmd := rfl
@[simp] theorem State.loadRange_fmt (f : QFormat) (a i e : Word) : (s.loadRange f a i e).fmt = f := rfl
@[simp] theorem State.loadRange_base (f : QFormat) (a i e : Word) : (s.loadRange f a i e).base = a := rfl
@[simp] theorem State.loadRange_stop (f : QFormat) (a i e : Word) : (s.loadRange f a i e).stop = e := rfl
@[simp] theorem State.loadRange_idx (f : QFormat) (a i e : Word) : (s.loadRange f a i e).idx = i := rfl
@[simp] theorem State.loadRange_txq (f : QFormat) (a i e : Word) : (s.loadRange f a i e).txq = s.txq := rfl
@[simp] theorem State.loadRange_txt (f : QFormat) (a i e : Word) : (s.loadRange f a i e).txt = s.txt := rfl
@[simp] theorem State.loadRange_mem (f : QFormat) (a i e : Word) : (s.loadRange f a i e).mem = s.mem := rfl
@[simp] theorem State.loadRange_reads (f : QFormat) (a i e : Word) : (s.loadRange f a i e).reads = s.reads := rfl
@[simp] theorem State.loadRange_host (f : QFormat) (a i e : Word) : (s.loadRange f a i e).host = s.host := rfl
@[simp] theorem State.loadRange_held (f : QFormat) (a i e : Word) : (s.loadRange f a i e).held = s.held := rfl
@[simp] theorem State.loadRange_rdata (f : QFormat) (a i e : Word) : (s.loadRange f a i e).rdata = s.rdata := rfl
@[simp] theorem State.loadRange_sched (f : QFormat) (a i e : Word) : (s.loadRange f a i e).sched = s.sched := rfl

/-! ### `nextIndex` -/

@[simp] theorem State.nextIndex_x : s.nextIndex.x = s.x := rfl
@[simp] theorem State.nextIndex_name0 : s.nextIndex.name0 = s.name0 := rfl
@[simp] theorem State.nextIndex_name1 : s.nextIndex.name1 = s.name1 := rfl
@[simp] theorem State.nextIndex_run : s.nextIndex.run = .busy .elementRange := rfl
@[simp] theorem State.nextIndex_cause : s.nextIndex.cause = s.cause := rfl
@[simp] theorem State.nextIndex_finfo : s.nextIndex.finfo = s.finfo := rfl
@[simp] theorem State.nextIndex_faddr : s.nextIndex.faddr = s.faddr := rfl
@[simp] theorem State.nextIndex_cmd : s.nextIndex.cmd = s.cmd := rfl
@[simp] theorem State.nextIndex_fmt : s.nextIndex.fmt = s.fmt := rfl
@[simp] theorem State.nextIndex_base : s.nextIndex.base = s.base := rfl
@[simp] theorem State.nextIndex_stop : s.nextIndex.stop = s.stop := rfl
@[simp] theorem State.nextIndex_idx : s.nextIndex.idx = s.idx + 1 := rfl
@[simp] theorem State.nextIndex_txq : s.nextIndex.txq = s.txq := rfl
@[simp] theorem State.nextIndex_txt : s.nextIndex.txt = s.txt := rfl
@[simp] theorem State.nextIndex_mem : s.nextIndex.mem = s.mem := rfl
@[simp] theorem State.nextIndex_reads : s.nextIndex.reads = s.reads := rfl
@[simp] theorem State.nextIndex_host : s.nextIndex.host = s.host := rfl
@[simp] theorem State.nextIndex_held : s.nextIndex.held = s.held := rfl
@[simp] theorem State.nextIndex_rdata : s.nextIndex.rdata = s.rdata := rfl
@[simp] theorem State.nextIndex_sched : s.nextIndex.sched = s.sched := rfl

/-! ### `logRead` -/

@[simp] theorem State.logRead_x (a n : Nat) : (s.logRead a n).x = s.x := rfl
@[simp] theorem State.logRead_name0 (a n : Nat) : (s.logRead a n).name0 = s.name0 := rfl
@[simp] theorem State.logRead_name1 (a n : Nat) : (s.logRead a n).name1 = s.name1 := rfl
@[simp] theorem State.logRead_run (a n : Nat) : (s.logRead a n).run = s.run := rfl
@[simp] theorem State.logRead_cause (a n : Nat) : (s.logRead a n).cause = s.cause := rfl
@[simp] theorem State.logRead_finfo (a n : Nat) : (s.logRead a n).finfo = s.finfo := rfl
@[simp] theorem State.logRead_faddr (a n : Nat) : (s.logRead a n).faddr = s.faddr := rfl
@[simp] theorem State.logRead_cmd (a n : Nat) : (s.logRead a n).cmd = s.cmd := rfl
@[simp] theorem State.logRead_fmt (a n : Nat) : (s.logRead a n).fmt = s.fmt := rfl
@[simp] theorem State.logRead_base (a n : Nat) : (s.logRead a n).base = s.base := rfl
@[simp] theorem State.logRead_stop (a n : Nat) : (s.logRead a n).stop = s.stop := rfl
@[simp] theorem State.logRead_idx (a n : Nat) : (s.logRead a n).idx = s.idx := rfl
@[simp] theorem State.logRead_txq (a n : Nat) : (s.logRead a n).txq = s.txq := rfl
@[simp] theorem State.logRead_txt (a n : Nat) : (s.logRead a n).txt = s.txt := rfl
@[simp] theorem State.logRead_mem (a n : Nat) : (s.logRead a n).mem = s.mem := rfl
@[simp] theorem State.logRead_reads (a n : Nat) : (s.logRead a n).reads = s.reads ++ [⟨a, n⟩] := rfl
@[simp] theorem State.logRead_host (a n : Nat) : (s.logRead a n).host = s.host := rfl
@[simp] theorem State.logRead_held (a n : Nat) : (s.logRead a n).held = s.held := rfl
@[simp] theorem State.logRead_rdata (a n : Nat) : (s.logRead a n).rdata = s.rdata := rfl
@[simp] theorem State.logRead_sched (a n : Nat) : (s.logRead a n).sched = s.sched := rfl

/-! ### `setName0` -/

@[simp] theorem State.setName0_x (v : Word) : (s.setName0 v).x = s.x := rfl
@[simp] theorem State.setName0_name0 (v : Word) : (s.setName0 v).name0 = v := rfl
@[simp] theorem State.setName0_name1 (v : Word) : (s.setName0 v).name1 = s.name1 := rfl
@[simp] theorem State.setName0_run (v : Word) : (s.setName0 v).run = s.run := rfl
@[simp] theorem State.setName0_cause (v : Word) : (s.setName0 v).cause = s.cause := rfl
@[simp] theorem State.setName0_finfo (v : Word) : (s.setName0 v).finfo = s.finfo := rfl
@[simp] theorem State.setName0_faddr (v : Word) : (s.setName0 v).faddr = s.faddr := rfl
@[simp] theorem State.setName0_cmd (v : Word) : (s.setName0 v).cmd = s.cmd := rfl
@[simp] theorem State.setName0_fmt (v : Word) : (s.setName0 v).fmt = s.fmt := rfl
@[simp] theorem State.setName0_base (v : Word) : (s.setName0 v).base = s.base := rfl
@[simp] theorem State.setName0_stop (v : Word) : (s.setName0 v).stop = s.stop := rfl
@[simp] theorem State.setName0_idx (v : Word) : (s.setName0 v).idx = s.idx := rfl
@[simp] theorem State.setName0_txq (v : Word) : (s.setName0 v).txq = s.txq := rfl
@[simp] theorem State.setName0_txt (v : Word) : (s.setName0 v).txt = s.txt := rfl
@[simp] theorem State.setName0_mem (v : Word) : (s.setName0 v).mem = s.mem := rfl
@[simp] theorem State.setName0_reads (v : Word) : (s.setName0 v).reads = s.reads := rfl
@[simp] theorem State.setName0_host (v : Word) : (s.setName0 v).host = s.host := rfl
@[simp] theorem State.setName0_held (v : Word) : (s.setName0 v).held = s.held := rfl
@[simp] theorem State.setName0_rdata (v : Word) : (s.setName0 v).rdata = s.rdata := rfl
@[simp] theorem State.setName0_sched (v : Word) : (s.setName0 v).sched = s.sched := rfl

/-! ### `setName1` -/

@[simp] theorem State.setName1_x (v : Word) : (s.setName1 v).x = s.x := rfl
@[simp] theorem State.setName1_name0 (v : Word) : (s.setName1 v).name0 = s.name0 := rfl
@[simp] theorem State.setName1_name1 (v : Word) : (s.setName1 v).name1 = v := rfl
@[simp] theorem State.setName1_run (v : Word) : (s.setName1 v).run = s.run := rfl
@[simp] theorem State.setName1_cause (v : Word) : (s.setName1 v).cause = s.cause := rfl
@[simp] theorem State.setName1_finfo (v : Word) : (s.setName1 v).finfo = s.finfo := rfl
@[simp] theorem State.setName1_faddr (v : Word) : (s.setName1 v).faddr = s.faddr := rfl
@[simp] theorem State.setName1_cmd (v : Word) : (s.setName1 v).cmd = s.cmd := rfl
@[simp] theorem State.setName1_fmt (v : Word) : (s.setName1 v).fmt = s.fmt := rfl
@[simp] theorem State.setName1_base (v : Word) : (s.setName1 v).base = s.base := rfl
@[simp] theorem State.setName1_stop (v : Word) : (s.setName1 v).stop = s.stop := rfl
@[simp] theorem State.setName1_idx (v : Word) : (s.setName1 v).idx = s.idx := rfl
@[simp] theorem State.setName1_txq (v : Word) : (s.setName1 v).txq = s.txq := rfl
@[simp] theorem State.setName1_txt (v : Word) : (s.setName1 v).txt = s.txt := rfl
@[simp] theorem State.setName1_mem (v : Word) : (s.setName1 v).mem = s.mem := rfl
@[simp] theorem State.setName1_reads (v : Word) : (s.setName1 v).reads = s.reads := rfl
@[simp] theorem State.setName1_host (v : Word) : (s.setName1 v).host = s.host := rfl
@[simp] theorem State.setName1_held (v : Word) : (s.setName1 v).held = s.held := rfl
@[simp] theorem State.setName1_rdata (v : Word) : (s.setName1 v).rdata = s.rdata := rfl
@[simp] theorem State.setName1_sched (v : Word) : (s.setName1 v).sched = s.sched := rfl

/-! ### `setHost` -/

@[simp] theorem State.setHost_x (l : List Transfer) : (s.setHost l).x = s.x := rfl
@[simp] theorem State.setHost_name0 (l : List Transfer) : (s.setHost l).name0 = s.name0 := rfl
@[simp] theorem State.setHost_name1 (l : List Transfer) : (s.setHost l).name1 = s.name1 := rfl
@[simp] theorem State.setHost_run (l : List Transfer) : (s.setHost l).run = s.run := rfl
@[simp] theorem State.setHost_cause (l : List Transfer) : (s.setHost l).cause = s.cause := rfl
@[simp] theorem State.setHost_finfo (l : List Transfer) : (s.setHost l).finfo = s.finfo := rfl
@[simp] theorem State.setHost_faddr (l : List Transfer) : (s.setHost l).faddr = s.faddr := rfl
@[simp] theorem State.setHost_cmd (l : List Transfer) : (s.setHost l).cmd = s.cmd := rfl
@[simp] theorem State.setHost_fmt (l : List Transfer) : (s.setHost l).fmt = s.fmt := rfl
@[simp] theorem State.setHost_base (l : List Transfer) : (s.setHost l).base = s.base := rfl
@[simp] theorem State.setHost_stop (l : List Transfer) : (s.setHost l).stop = s.stop := rfl
@[simp] theorem State.setHost_idx (l : List Transfer) : (s.setHost l).idx = s.idx := rfl
@[simp] theorem State.setHost_txq (l : List Transfer) : (s.setHost l).txq = s.txq := rfl
@[simp] theorem State.setHost_txt (l : List Transfer) : (s.setHost l).txt = s.txt := rfl
@[simp] theorem State.setHost_mem (l : List Transfer) : (s.setHost l).mem = s.mem := rfl
@[simp] theorem State.setHost_reads (l : List Transfer) : (s.setHost l).reads = s.reads := rfl
@[simp] theorem State.setHost_host (l : List Transfer) : (s.setHost l).host = l := rfl
@[simp] theorem State.setHost_held (l : List Transfer) : (s.setHost l).held = false := rfl
@[simp] theorem State.setHost_rdata (l : List Transfer) : (s.setHost l).rdata = s.rdata := rfl
@[simp] theorem State.setHost_sched (l : List Transfer) : (s.setHost l).sched = s.sched := rfl

/-! ### `hold` -/

@[simp] theorem State.hold_x : s.hold.x = s.x := rfl
@[simp] theorem State.hold_name0 : s.hold.name0 = s.name0 := rfl
@[simp] theorem State.hold_name1 : s.hold.name1 = s.name1 := rfl
@[simp] theorem State.hold_run : s.hold.run = s.run := rfl
@[simp] theorem State.hold_cause : s.hold.cause = s.cause := rfl
@[simp] theorem State.hold_finfo : s.hold.finfo = s.finfo := rfl
@[simp] theorem State.hold_faddr : s.hold.faddr = s.faddr := rfl
@[simp] theorem State.hold_cmd : s.hold.cmd = s.cmd := rfl
@[simp] theorem State.hold_fmt : s.hold.fmt = s.fmt := rfl
@[simp] theorem State.hold_base : s.hold.base = s.base := rfl
@[simp] theorem State.hold_stop : s.hold.stop = s.stop := rfl
@[simp] theorem State.hold_idx : s.hold.idx = s.idx := rfl
@[simp] theorem State.hold_txq : s.hold.txq = s.txq := rfl
@[simp] theorem State.hold_txt : s.hold.txt = s.txt := rfl
@[simp] theorem State.hold_mem : s.hold.mem = s.mem := rfl
@[simp] theorem State.hold_reads : s.hold.reads = s.reads := rfl
@[simp] theorem State.hold_host : s.hold.host = s.host := rfl
@[simp] theorem State.hold_held : s.hold.held = true := rfl
@[simp] theorem State.hold_rdata : s.hold.rdata = s.rdata := rfl
@[simp] theorem State.hold_sched : s.hold.sched = s.sched := rfl

/-! ### `answer` -/

@[simp] theorem State.answer_x (n : BitVec 5) (v : Word) : (s.answer n v).x = s.x := rfl
@[simp] theorem State.answer_name0 (n : BitVec 5) (v : Word) : (s.answer n v).name0 = s.name0 := rfl
@[simp] theorem State.answer_name1 (n : BitVec 5) (v : Word) : (s.answer n v).name1 = s.name1 := rfl
@[simp] theorem State.answer_run (n : BitVec 5) (v : Word) : (s.answer n v).run = s.run := rfl
@[simp] theorem State.answer_cause (n : BitVec 5) (v : Word) : (s.answer n v).cause = s.cause := rfl
@[simp] theorem State.answer_finfo (n : BitVec 5) (v : Word) : (s.answer n v).finfo = s.finfo := rfl
@[simp] theorem State.answer_faddr (n : BitVec 5) (v : Word) : (s.answer n v).faddr = s.faddr := rfl
@[simp] theorem State.answer_cmd (n : BitVec 5) (v : Word) : (s.answer n v).cmd = s.cmd := rfl
@[simp] theorem State.answer_fmt (n : BitVec 5) (v : Word) : (s.answer n v).fmt = s.fmt := rfl
@[simp] theorem State.answer_base (n : BitVec 5) (v : Word) : (s.answer n v).base = s.base := rfl
@[simp] theorem State.answer_stop (n : BitVec 5) (v : Word) : (s.answer n v).stop = s.stop := rfl
@[simp] theorem State.answer_idx (n : BitVec 5) (v : Word) : (s.answer n v).idx = s.idx := rfl
@[simp] theorem State.answer_txq (n : BitVec 5) (v : Word) : (s.answer n v).txq = s.txq := rfl
@[simp] theorem State.answer_txt (n : BitVec 5) (v : Word) : (s.answer n v).txt = s.txt := rfl
@[simp] theorem State.answer_mem (n : BitVec 5) (v : Word) : (s.answer n v).mem = s.mem := rfl
@[simp] theorem State.answer_reads (n : BitVec 5) (v : Word) : (s.answer n v).reads = s.reads := rfl
@[simp] theorem State.answer_host (n : BitVec 5) (v : Word) : (s.answer n v).host = s.host := rfl
@[simp] theorem State.answer_held (n : BitVec 5) (v : Word) : (s.answer n v).held = s.held := rfl
@[simp] theorem State.answer_rdata (n : BitVec 5) (v : Word) : (s.answer n v).rdata = s.rdata ++ [(n, v)] := rfl
@[simp] theorem State.answer_sched (n : BitVec 5) (v : Word) : (s.answer n v).sched = s.sched := rfl

/-! ### `setSched` -/

@[simp] theorem State.setSched_x (l : List Move) : (s.setSched l).x = s.x := rfl
@[simp] theorem State.setSched_name0 (l : List Move) : (s.setSched l).name0 = s.name0 := rfl
@[simp] theorem State.setSched_name1 (l : List Move) : (s.setSched l).name1 = s.name1 := rfl
@[simp] theorem State.setSched_run (l : List Move) : (s.setSched l).run = s.run := rfl
@[simp] theorem State.setSched_cause (l : List Move) : (s.setSched l).cause = s.cause := rfl
@[simp] theorem State.setSched_finfo (l : List Move) : (s.setSched l).finfo = s.finfo := rfl
@[simp] theorem State.setSched_faddr (l : List Move) : (s.setSched l).faddr = s.faddr := rfl
@[simp] theorem State.setSched_cmd (l : List Move) : (s.setSched l).cmd = s.cmd := rfl
@[simp] theorem State.setSched_fmt (l : List Move) : (s.setSched l).fmt = s.fmt := rfl
@[simp] theorem State.setSched_base (l : List Move) : (s.setSched l).base = s.base := rfl
@[simp] theorem State.setSched_stop (l : List Move) : (s.setSched l).stop = s.stop := rfl
@[simp] theorem State.setSched_idx (l : List Move) : (s.setSched l).idx = s.idx := rfl
@[simp] theorem State.setSched_txq (l : List Move) : (s.setSched l).txq = s.txq := rfl
@[simp] theorem State.setSched_txt (l : List Move) : (s.setSched l).txt = s.txt := rfl
@[simp] theorem State.setSched_mem (l : List Move) : (s.setSched l).mem = s.mem := rfl
@[simp] theorem State.setSched_reads (l : List Move) : (s.setSched l).reads = s.reads := rfl
@[simp] theorem State.setSched_host (l : List Move) : (s.setSched l).host = s.host := rfl
@[simp] theorem State.setSched_held (l : List Move) : (s.setSched l).held = s.held := rfl
@[simp] theorem State.setSched_rdata (l : List Move) : (s.setSched l).rdata = s.rdata := rfl
@[simp] theorem State.setSched_sched (l : List Move) : (s.setSched l).sched = l := rfl

/-! ### `poke` -/

@[simp] theorem State.poke_x (a : Word) (b : Option Byte) : (s.poke a b).x = s.x := rfl
@[simp] theorem State.poke_name0 (a : Word) (b : Option Byte) : (s.poke a b).name0 = s.name0 := rfl
@[simp] theorem State.poke_name1 (a : Word) (b : Option Byte) : (s.poke a b).name1 = s.name1 := rfl
@[simp] theorem State.poke_run (a : Word) (b : Option Byte) : (s.poke a b).run = s.run := rfl
@[simp] theorem State.poke_cause (a : Word) (b : Option Byte) : (s.poke a b).cause = s.cause := rfl
@[simp] theorem State.poke_finfo (a : Word) (b : Option Byte) : (s.poke a b).finfo = s.finfo := rfl
@[simp] theorem State.poke_faddr (a : Word) (b : Option Byte) : (s.poke a b).faddr = s.faddr := rfl
@[simp] theorem State.poke_cmd (a : Word) (b : Option Byte) : (s.poke a b).cmd = s.cmd := rfl
@[simp] theorem State.poke_fmt (a : Word) (b : Option Byte) : (s.poke a b).fmt = s.fmt := rfl
@[simp] theorem State.poke_base (a : Word) (b : Option Byte) : (s.poke a b).base = s.base := rfl
@[simp] theorem State.poke_stop (a : Word) (b : Option Byte) : (s.poke a b).stop = s.stop := rfl
@[simp] theorem State.poke_idx (a : Word) (b : Option Byte) : (s.poke a b).idx = s.idx := rfl
@[simp] theorem State.poke_txq (a : Word) (b : Option Byte) : (s.poke a b).txq = s.txq := rfl
@[simp] theorem State.poke_txt (a : Word) (b : Option Byte) : (s.poke a b).txt = s.txt := rfl
@[simp] theorem State.poke_mem (a : Word) (b : Option Byte) : (s.poke a b).mem = memPoke s.mem a b := rfl
@[simp] theorem State.poke_reads (a : Word) (b : Option Byte) : (s.poke a b).reads = s.reads := rfl
@[simp] theorem State.poke_host (a : Word) (b : Option Byte) : (s.poke a b).host = s.host := rfl
@[simp] theorem State.poke_held (a : Word) (b : Option Byte) : (s.poke a b).held = s.held := rfl
@[simp] theorem State.poke_rdata (a : Word) (b : Option Byte) : (s.poke a b).rdata = s.rdata := rfl
@[simp] theorem State.poke_sched (a : Word) (b : Option Byte) : (s.poke a b).sched = s.sched := rfl

/-! ### `applyReset` -/

@[simp] theorem State.applyReset_x : s.applyReset.x = ⟨0, 0, 0, 0, 0, 0, 0, 0⟩ := rfl
@[simp] theorem State.applyReset_name0 : s.applyReset.name0 = 0 := rfl
@[simp] theorem State.applyReset_name1 : s.applyReset.name1 = 0 := rfl
@[simp] theorem State.applyReset_run : s.applyReset.run = .idle := rfl
@[simp] theorem State.applyReset_cause : s.applyReset.cause = 0 := rfl
@[simp] theorem State.applyReset_finfo : s.applyReset.finfo = 0 := rfl
@[simp] theorem State.applyReset_faddr : s.applyReset.faddr = 0 := rfl
@[simp] theorem State.applyReset_cmd : s.applyReset.cmd = 0 := rfl
@[simp] theorem State.applyReset_fmt : s.applyReset.fmt = ⟨.w8, 0⟩ := rfl
@[simp] theorem State.applyReset_base : s.applyReset.base = 0 := rfl
@[simp] theorem State.applyReset_stop : s.applyReset.stop = 0 := rfl
@[simp] theorem State.applyReset_idx : s.applyReset.idx = 0 := rfl
@[simp] theorem State.applyReset_txq : s.applyReset.txq = [] := rfl
@[simp] theorem State.applyReset_txt : s.applyReset.txt = s.txt := rfl
@[simp] theorem State.applyReset_mem : s.applyReset.mem = s.mem := rfl
@[simp] theorem State.applyReset_reads : s.applyReset.reads = s.reads := rfl
@[simp] theorem State.applyReset_host : s.applyReset.host = hostAfterReset s := rfl
@[simp] theorem State.applyReset_held : s.applyReset.held = false := rfl
@[simp] theorem State.applyReset_rdata : s.applyReset.rdata = s.rdata := rfl
@[simp] theorem State.applyReset_sched : s.applyReset.sched = s.sched := rfl

/-! ### `withCommand` -/

@[simp] theorem State.withCommand_x (c : Cmd) : (s.withCommand c).x = s.x := rfl
@[simp] theorem State.withCommand_name0 (c : Cmd) : (s.withCommand c).name0 = s.name0 := rfl
@[simp] theorem State.withCommand_name1 (c : Cmd) : (s.withCommand c).name1 = s.name1 := rfl
@[simp] theorem State.withCommand_run (c : Cmd) : (s.withCommand c).run = .idle := rfl
@[simp] theorem State.withCommand_cause (c : Cmd) : (s.withCommand c).cause = s.cause := rfl
@[simp] theorem State.withCommand_finfo (c : Cmd) : (s.withCommand c).finfo = s.finfo := rfl
@[simp] theorem State.withCommand_faddr (c : Cmd) : (s.withCommand c).faddr = s.faddr := rfl
@[simp] theorem State.withCommand_cmd (c : Cmd) : (s.withCommand c).cmd = s.cmd := rfl
@[simp] theorem State.withCommand_fmt (c : Cmd) : (s.withCommand c).fmt = s.fmt := rfl
@[simp] theorem State.withCommand_base (c : Cmd) : (s.withCommand c).base = s.base := rfl
@[simp] theorem State.withCommand_stop (c : Cmd) : (s.withCommand c).stop = s.stop := rfl
@[simp] theorem State.withCommand_idx (c : Cmd) : (s.withCommand c).idx = s.idx := rfl
@[simp] theorem State.withCommand_txq (c : Cmd) : (s.withCommand c).txq = s.txq := rfl
@[simp] theorem State.withCommand_txt (c : Cmd) : (s.withCommand c).txt = s.txt := rfl
@[simp] theorem State.withCommand_mem (c : Cmd) : (s.withCommand c).mem = s.mem := rfl
@[simp] theorem State.withCommand_reads (c : Cmd) : (s.withCommand c).reads = s.reads := rfl
@[simp] theorem State.withCommand_host (c : Cmd) : (s.withCommand c).host = .write 16 (c.setWidth 64) :: s.host := rfl
@[simp] theorem State.withCommand_held (c : Cmd) : (s.withCommand c).held = false := rfl
@[simp] theorem State.withCommand_rdata (c : Cmd) : (s.withCommand c).rdata = s.rdata := rfl
@[simp] theorem State.withCommand_sched (c : Cmd) : (s.withCommand c).sched = .host :: s.sched := rfl

end Sys2Proof.Machine
end

