-- ==== Sys2Proof/Laws/Steps.lean ====
section
/-! SUPPORT. What a step can do, said once: one inversion lemma per shared operation, for proofs to
cite instead of unfolding the step. -/

namespace Sys2Proof.Machine

/-! ### Commands -/

/-- Everything a command can do to the state. -/
theorem exec_cases {i : Instr} {s t : State} (h : exec i s = .next t) :
    (∃ rd v, t = s.setReg rd v) ∨
    (∃ f rs1, i = .rval f rs1 ∧
      t = s.startText (valueLine f s.name0 s.name1 (fixOperand f.w (s.getReg rs1))) .finalText) ∨
    (∃ f rs1 rs2, i = .relt f rs1 rs2 ∧ t = s.loadElement f (s.getReg rs1) (s.getReg rs2)) ∨
    (∃ f rs1 rs2 rs3, i = .rrng f rs1 rs2 rs3 ∧
      (s.getReg rs3).toNat < (s.getReg rs2).toNat ∧ t = s.raise .rangeOrder 0) ∨
    (∃ f rs1 rs2 rs3, i = .rrng f rs1 rs2 rs3 ∧
      (s.getReg rs2).toNat ≤ (s.getReg rs3).toNat ∧
      t = s.loadRange f (s.getReg rs1) (s.getReg rs2) (s.getReg rs3)) := by
  cases i with
  | scale f rd => exact .inl ⟨rd, _, (Host.Outcome.next.inj h).symm⟩
  | fixmax f rd => exact .inl ⟨rd, _, (Host.Outcome.next.inj h).symm⟩
  | fixmin f rd => exact .inl ⟨rd, _, (Host.Outcome.next.inj h).symm⟩
  | fltmax f rd => exact .inl ⟨rd, _, (Host.Outcome.next.inj h).symm⟩
  | fltmin f rd => exact .inl ⟨rd, _, (Host.Outcome.next.inj h).symm⟩
  | tofix f rd rs1 => exact .inl ⟨rd, _, (Host.Outcome.next.inj h).symm⟩
  | toflt f rd rs1 => exact .inl ⟨rd, _, (Host.Outcome.next.inj h).symm⟩
  | rval f rs1 => exact .inr (.inl ⟨f, rs1, rfl, (Host.Outcome.next.inj h).symm⟩)
  | relt f rs1 rs2 => exact .inr (.inr (.inl ⟨f, rs1, rs2, rfl, (Host.Outcome.next.inj h).symm⟩))
  | rrng f rs1 rs2 rs3 =>
    simp only [exec, execRrng] at h
    split_ifs at h with hlt
    · exact .inr (.inr (.inr (.inl ⟨f, rs1, rs2, rs3, rfl, hlt, (Host.Outcome.next.inj h).symm⟩)))
    · exact .inr (.inr (.inr (.inr
        ⟨f, rs1, rs2, rs3, rfl, not_lt.1 hlt, (Host.Outcome.next.inj h).symm⟩)))

/-! ### The element step and the text port -/

/-- An element step whose element can be read queues its line and logs one request. -/
theorem elementStep_ok {s : State} {v : Int} (p : Phase)
    (h : elementAt s.mem s.fmt.w s.base s.idx = .ok v) :
    elementStep s p =
      (s.logRead (elementAddr s.base s.idx s.fmt.w) s.fmt.w.bytes).startText
        (elementLine s.fmt s.name0 s.name1 s.idx v) p := by
  simp only [elementAt] at h
  split_ifs at h with h1 h2
  cases hm : memRead s.mem (elementAddr s.base s.idx s.fmt.w) s.fmt.w.bytes with
  | none => rw [hm] at h; cases h
  | some u =>
    rw [hm] at h
    obtain rfl := Except.ok.inj h
    simp only [elementStep, h1, h2, hm, if_false]

/-- An element step whose element cannot be read enters the fault `elementAt` names; a request was
made only if the element was aligned and in range. -/
theorem elementStep_error {s : State} {c : FaultCause} (p : Phase)
    (h : elementAt s.mem s.fmt.w s.base s.idx = .error c) :
    elementStep s p = s.raise c (BitVec.ofNat 64 (elementAddr s.base s.idx s.fmt.w)) ∨
    elementStep s p = (s.logRead (elementAddr s.base s.idx s.fmt.w) s.fmt.w.bytes).raise c
      (BitVec.ofNat 64 (elementAddr s.base s.idx s.fmt.w)) := by
  simp only [elementAt] at h
  split_ifs at h with h1 h2
  · obtain rfl := Except.error.inj h
    exact .inl (by rw [elementStep]; exact if_pos h1)
  · obtain rfl := Except.error.inj h
    exact .inl (by simp only [elementStep, h1, h2, if_false, if_true])
  · cases hm : memRead s.mem (elementAddr s.base s.idx s.fmt.w) s.fmt.w.bytes with
    | none =>
      rw [hm] at h
      obtain rfl := Except.error.inj h
      exact .inr (by simp only [elementStep, h1, h2, hm, if_false])
    | some u => rw [hm] at h; cases h

/-- An element step queues a line or enters an access fault. -/
theorem elementStep_cases (s : State) (p : Phase) :
    (∃ v, elementAt s.mem s.fmt.w s.base s.idx = .ok v ∧
      elementStep s p = (s.logRead (elementAddr s.base s.idx s.fmt.w) s.fmt.w.bytes).startText
        (elementLine s.fmt s.name0 s.name1 s.idx v) p) ∨
    (∃ c, elementAt s.mem s.fmt.w s.base s.idx = .error c ∧
      (elementStep s p = s.raise c (BitVec.ofNat 64 (elementAddr s.base s.idx s.fmt.w)) ∨
       elementStep s p = (s.logRead (elementAddr s.base s.idx s.fmt.w) s.fmt.w.bytes).raise c
        (BitVec.ofNat 64 (elementAddr s.base s.idx s.fmt.w)))) := by
  cases h : elementAt s.mem s.fmt.w s.base s.idx with
  | ok v => exact .inl ⟨v, rfl, elementStep_ok p h⟩
  | error c => exact .inr ⟨c, rfl, elementStep_error p h⟩

/-- More bytes wait after this one: it is handed over and nothing else happens. -/
theorem handOver_more {s : State} {b c : Byte} {l : List Byte} (h : s.txq = b :: c :: l) :
    handOver s = s.handByte b (c :: l) := by
  simp only [handOver, h]

/-- The last byte is handed over and the command goes on or completes. -/
theorem handOver_last {s : State} {b : Byte} (h : s.txq = [b]) :
    handOver s = textDone (s.handByte b []) := by
  simp only [handOver, h]

/-- The text of a command's last emission is done: it completes. -/
theorem textDone_final {s : State} (h : s.run = .busy .finalText) : textDone s = s.complete := by
  simp only [textDone, h]

/-- The last line of a range is done: the terminator follows. -/
theorem textDone_range_end {s : State} (h : s.run = .busy .rangeLine) (he : s.idx = s.stop) :
    textDone s = s.startText termLine .finalText := by
  simp only [textDone, h, he, if_true]

/-- A line of a range is done and indices remain: the next element follows. -/
theorem textDone_range_next {s : State} (h : s.run = .busy .rangeLine) (he : s.idx ≠ s.stop) :
    textDone s = s.nextIndex := by
  simp only [textDone, h, he, if_false]

/-! ### The host port -/

/-- The port takes a write in IDLE only. -/
theorem writeReady_iff (r : Run) (n : BitVec 5) : writeReady r n = true ↔ r = .idle := by
  cases r <;> simp [writeReady]

/-- Outside IDLE the host's next write is held off. -/
theorem hostTurn_hold {s : State} {n : BitVec 5} {d : Word} {rest : List Transfer}
    (hh : s.host = .write n d :: rest) (hr : s.run ≠ .idle) : hostTurn s = .done s.hold := by
  simp only [hostTurn, hh, writeReady_iff, hr, if_false]

/-- In IDLE the host's next write is taken. -/
theorem hostTurn_write {s : State} {n : BitVec 5} {d : Word} {rest : List Transfer}
    (hh : s.host = .write n d :: rest) (hr : s.run = .idle) :
    hostTurn s = hostWrite n d (s.setHost rest) := by
  simp only [hostTurn, hh, writeReady_iff, hr, if_true]

/-- Everything a host turn can do that executes no command. -/
theorem hostTurn_done_cases {s t : State} (h : hostTurn s = .done t) :
    (s.host = [] ∧ t = s) ∨
    (∃ n rest, s.host = .read n :: rest ∧ t = (s.setHost rest).answer n (hostValue s n)) ∨
    (∃ n d rest, s.host = .write n d :: rest ∧
      ((s.run ≠ .idle ∧ t = s.hold) ∨
       (s.run = .idle ∧
         (t = s.setHost rest ∨
          (∃ r, hostReg n = .x r ∧ t = (s.setHost rest).setReg r d) ∨
          (hostReg n = .name0 ∧ t = (s.setHost rest).setName0 d) ∨
          (hostReg n = .name1 ∧ t = (s.setHost rest).setName1 d) ∨
          (hostReg n = .cmd ∧
            ((decode (d.setWidth 32) = .illegalCommand ∧
              t = ((s.setHost rest).latch (d.setWidth 32)).raise .illegalCommand 0) ∨
             (decode (d.setWidth 32) = .illegalFormat ∧
              t = ((s.setHost rest).latch (d.setWidth 32)).raise .illegalFormat 0))))))) := by
  cases hh : s.host with
  | nil =>
    simp only [hostTurn, hh, Turn.done.injEq] at h
    exact .inl ⟨rfl, h.symm⟩
  | cons x rest =>
    cases x with
    | read n =>
      simp only [hostTurn, hh, Turn.done.injEq] at h
      exact .inr (.inl ⟨n, rest, rfl, h.symm⟩)
    | write n d =>
      refine .inr (.inr ⟨n, d, rest, rfl, ?_⟩)
      by_cases hr : s.run = .idle
      · rw [hostTurn_write hh hr] at h
        refine .inr ⟨hr, ?_⟩
        cases hn : hostReg n <;> simp only [hostWrite, hn, Turn.done.injEq] at h
        case x r => exact .inr (.inl ⟨r, rfl, h.symm⟩)
        case name0 => exact .inr (.inr (.inl ⟨rfl, h.symm⟩))
        case name1 => exact .inr (.inr (.inr (.inl ⟨rfl, h.symm⟩)))
        case cmd =>
          refine .inr (.inr (.inr (.inr ⟨rfl, ?_⟩)))
          simp only [acceptCommand] at h
          split at h
          · exact .inl ⟨by assumption, (Turn.done.inj h).symm⟩
          · exact .inr ⟨by assumption, (Turn.done.inj h).symm⟩
          · cases h
        all_goals exact .inl h.symm
      · rw [hostTurn_hold hh hr] at h
        exact .inl ⟨hr, (Turn.done.inj h).symm⟩

/-- A host turn executes a command only when the FXC is IDLE and a legal word is written to `CMD`. -/
theorem hostTurn_run_cases {s t : State} {i : Instr} (h : hostTurn s = .run i t) :
    ∃ n d rest, s.host = .write n d :: rest ∧ hostReg n = .cmd ∧ s.run = .idle ∧
      decode (d.setWidth 32) = .legal i ∧ t = (s.setHost rest).latch (d.setWidth 32) := by
  cases hh : s.host with
  | nil => simp [hostTurn, hh] at h
  | cons x rest =>
    cases x with
    | read n => simp [hostTurn, hh] at h
    | write n d =>
      by_cases hr : s.run = .idle
      · rw [hostTurn_write hh hr] at h
        cases hn : hostReg n <;> simp only [hostWrite, hn] at h <;> try cases h
        simp only [acceptCommand] at h
        split at h
        · cases h
        · cases h
        · rename_i hd
          obtain ⟨rfl, rfl⟩ := Turn.run.inj h
          exact ⟨n, d, rest, rfl, hn, hr, hd, rfl⟩
      · rw [hostTurn_hold hh hr] at h
        cases h

/-! ### The step -/

/-- Everything a step can do: the state `s0` is `s` less the move taken from the schedule. -/
theorem step_cases {s t : State} (h : step s = .next t) :
    ∃ s0, ((s.sched = [] ∧ s0 = s) ∨ (∃ m ms, s.sched = m :: ms ∧ s0 = s.setSched ms)) ∧
      ((s.mover = .core ∧ t = coreStep s0) ∨
       (s.mover = .host ∧ hostTurn s0 = .done t) ∨
       (s.mover = .host ∧ ∃ i u, hostTurn s0 = .run i u ∧ exec i u = .next t) ∨
       (s.mover = .reset ∧ t = s0.applyReset) ∨
       (∃ a b, s.mover = .poke a b ∧ t = s0.poke a b)) := by
  have key : ∀ m s0, (∀ u, takeMove m s0 = .done u → u = t) →
      (∀ i u, takeMove m s0 = .run i u → exec i u = .next t) →
      ((m = .core ∧ t = coreStep s0) ∨ (m = .host ∧ hostTurn s0 = .done t) ∨
       (m = .host ∧ ∃ i u, hostTurn s0 = .run i u ∧ exec i u = .next t) ∨
       (m = .reset ∧ t = s0.applyReset) ∨ (∃ a b, m = .poke a b ∧ t = s0.poke a b)) := by
    intro m s0 hd hx
    cases m with
    | core => exact .inl ⟨rfl, (hd _ rfl).symm⟩
    | host =>
      cases ht : hostTurn s0 with
      | done u =>
        obtain rfl := hd u ht
        exact .inr (.inl ⟨rfl, rfl⟩)
      | run i u => exact .inr (.inr (.inl ⟨rfl, i, u, rfl, hx i u ht⟩))
    | reset => exact .inr (.inr (.inr (.inl ⟨rfl, (hd _ rfl).symm⟩)))
    | poke a b => exact .inr (.inr (.inr (.inr ⟨a, b, rfl, (hd _ rfl).symm⟩)))
  cases hs : s.sched with
  | nil =>
    refine ⟨s, .inl ⟨rfl, rfl⟩, ?_⟩
    simp only [State.mover, hs]
    simp only [step, turn, hs] at h
    refine key _ _ (fun u hu => ?_) (fun i u hu => ?_) <;> simp only [hu] at h
    · exact Host.Outcome.next.inj h
    · exact h
  | cons m ms =>
    refine ⟨s.setSched ms, .inr ⟨m, ms, rfl, rfl⟩, ?_⟩
    simp only [State.mover, hs]
    simp only [step, turn, hs] at h
    refine key _ _ (fun u hu => ?_) (fun i u hu => ?_) <;> simp only [hu] at h
    · exact Host.Outcome.next.inj h
    · exact h

/-- A step in which the host moves is a host turn on the state less that move, with the command it
accepts executed. -/
theorem step_of_host {s : State} (h : s.mover = .host) :
    step s = match hostTurn { s with sched := s.sched.tail } with
      | .done t => .next t
      | .run i t => exec i t := by
  cases hs : s.sched with
  | nil =>
    simp only [State.mover, hs] at h
    have hid : ({ s with sched := ([] : List Move).tail } : State) = s := by
      rw [List.tail_nil, ← hs]
    rw [hid]
    cases ht : hostTurn s <;> simp only [step, turn, hs, h, takeMove, ht]
  | cons m ms =>
    simp only [State.mover, hs] at h
    subst h
    rw [List.tail_cons]
    cases ht : hostTurn { s with sched := ms } <;>
      simp only [step, turn, hs, takeMove, State.setSched, ht]

/-- With nothing scheduled, a step of a running command is a step of the core. -/
theorem step_of_busy {s : State} {p : Phase} (hs : s.sched = []) (hr : s.run = .busy p) :
    step s = .next (coreStep s) := by
  simp only [step, turn, hs, hr, defaultMove, takeMove]

end Sys2Proof.Machine
end

