-- ==== Sys2Proof/Tests/Slice0.lean ====
section
/-! SUPPORT. The model's own tests: the WellFormed smoke test, decode of words written out from the
spec, one step per command against the spec's vectors (95_test_vectors.md), and a witness for the
hypotheses of every statement. -/

namespace Sys2Proof.Tests

open Sys2Proof Sys2Proof.Machine

/-! ### Helpers -/

/-- The state a step answers, or the reset state. -/
def after (o : Host.Outcome State Fault Refusal) : State :=
  match o with
  | .next s => s
  | .fault _ => State.reset
  | .refused _ => State.reset

def f87 : QFormat := ⟨.w8, 7⟩
def f1612 : QFormat := ⟨.w16, 12⟩
def f1615 : QFormat := ⟨.w16, 15⟩
def f320 : QFormat := ⟨.w32, 0⟩
def f640 : QFormat := ⟨.w64, 0⟩

/-- An IDLE FXC with a few registers, the name "arr" and the four bytes of elements 1 and 2 of R130's
example. -/
def base0 : State :=
  { State.reset with
    x := ⟨0x3F99999A, 0x1000, 1, 2, 0xFFFFFFFFFFFFFFFF, 0xECCD, 0x7FC00000, 12⟩
    name0 := 0x727261
    mem := [(0x1002, 0x00), (0x1003, 0xC0), (0x1004, 0x00), (0x1005, 0x40)] }

/-- `base0` with a host write to `CMD` as the next transfer. -/
def issuing (d : Word) : State := { base0 with host := [.write 16 d] }

/-- `base0` BUSY with an element step to come at an index of an array at a base. -/
def atElement (base idx : Word) : State :=
  { base0 with fmt := f1615, base := base, idx := idx, stop := idx, run := .busy .elementRange }

/-! ### WellFormed -/

theorem test_wf_refuses_n_eq_w : (Instr.tofix ⟨.w8, 8⟩ .x1 .x0).wf = false := by decide
theorem test_wf_refuses_n_32 : (Instr.scale ⟨.w32, 32⟩ .x0).wf = false := by decide
theorem test_wf_accepts_n_max : (Instr.scale ⟨.w16, 15⟩ .x0).wf = true := by decide

/-! ### Decode: the bits of R71, written out (op z rs3 rs2 rs1 rd ws n) -/

theorem test_decode_scale : decode 0b00010000000000000000000101001100 =
    .legal (.scale f1612 .x1) := by decide
theorem test_decode_fixmax : decode 0b00100000000000000000001001001100 =
    .legal (.fixmax f1612 .x2) := by decide
theorem test_decode_fixmin : decode 0b00110000000000000000001101001100 =
    .legal (.fixmin f1612 .x3) := by decide
theorem test_decode_fltmax : decode 0b01000000000000000000010001001100 =
    .legal (.fltmax f1612 .x4) := by decide
theorem test_decode_fltmin : decode 0b01010000000000000000010101001100 =
    .legal (.fltmin f1612 .x5) := by decide
theorem test_decode_tofix : decode 0b01100000000000000001000101001100 =
    .legal (.tofix f1612 .x1 .x2) := by decide
theorem test_decode_toflt : decode 0b01110000000000000011111111101111 =
    .legal (.toflt ⟨.w64, 47⟩ .x7 .x7) := by decide
theorem test_decode_rval : decode 0b10000000000000000001100001001111 =
    .legal (.rval f1615 .x3) := by decide
theorem test_decode_relt : decode 0b10010000000000010110000010011110 =
    .legal (.relt ⟨.w32, 30⟩ .x4 .x5) := by decide
theorem test_decode_rrng : decode 0b10100000000001101000100001001111 =
    .legal (.rrng f1615 .x1 .x2 .x3) := by decide
theorem test_decode_both_wrong_is_command : decode 0x10100008 = .illegalCommand := by decide
theorem test_decode_rrng_rd : decode 0xA0000107 = .illegalCommand := by decide
theorem test_decode_relt_rs3 : decode 0x90020007 = .illegalCommand := by decide
theorem test_decode_format : decode 0x60000108 = .illegalFormat := by decide
theorem test_decodeTableWord : decodeTableWord 32 0x10000007 = some (.scale f87 .x0) := by decide
theorem test_encode_rrng : encode (.rrng ⟨.w64, 63⟩ .x7 .x7 .x7) = 0xA00FF8FF := by decide

/-! ### One step per command (95_test_vectors.md sections 2 and 3) -/

theorem test_scale : (after (step (issuing 0x100000FF))).x.x0 = 0x8000000000000000 := by
  decide +kernel
theorem test_fixmax : (after (step (issuing 0x2000024C))).x.x2 = 0x7FFF := by decide +kernel
theorem test_fixmin : (after (step (issuing 0x3000034C))).x.x3 = 0xFFFFFFFFFFFF8000 := by
  decide +kernel
theorem test_fltmax : (after (step (issuing 0x4000044C))).x.x4 = 0x41000000 := by decide +kernel
theorem test_fltmin : (after (step (issuing 0x5000054C))).x.x5 = 0xC1000000 := by decide +kernel
theorem test_tofix : (after (step (issuing 0x6000014C))).x.x1 = 0x1333 := by decide +kernel
theorem test_tofix_nan : (after (step (issuing 0x6000314C))).x.x1 = 0x7FFF := by decide +kernel
theorem test_toflt : (after (step (issuing 0x7000294C))).x.x1 = 0xBF999800 := by decide +kernel
theorem test_toflt_tie : toFloatBits f320 16777219 = 0x4B800002 := by decide +kernel
/-- Vector V1 with the name "arr". -/
theorem test_rval : (after (step (issuing 0x8000384F))).txq =
    [0x61, 0x72, 0x72, 0x20, 0x20, 0x20, 0x20, 0x20, 0x20, 0x20, 0x20, 0x20, 0x20, 0x20, 0x20, 0x20,
     0x20, 0x51, 0x31, 0x35, 0x20, 0x3D, 0x20] ++ List.replicate 19 0x20 ++
    [0x30, 0x2E, 0x30, 0x30, 0x30, 0x33, 0x36, 0x36, 0x32, 0x31, 0x30, 0x39, 0x33, 0x37, 0x35,
     0x30, 0x30, 0x30, 0x30, 0x30, 0x30, 0x30, 0x30, 0x0A] := by decide +kernel
/-- The tie of R124: `2^−22` ends in 2, not 3. -/
theorem test_dec21_tie : dec21Bits 0x34800000 =
    [0x30, 0x2E, 0x30, 0x30, 0x30, 0x30, 0x30, 0x30, 0x32, 0x33, 0x38, 0x34, 0x31, 0x38, 0x35, 0x37,
     0x39, 0x31, 0x30, 0x31, 0x35, 0x36, 0x32] := by decide +kernel
theorem test_relt_latches : (after (step (issuing 0x9000C84F))).run = .busy .elementOne ∧
    (after (step (issuing 0x9000C84F))).idx = 2 := by decide +kernel
theorem test_element_read : (after (step (atElement 0x1000 2))).reads = [⟨0x1004, 2⟩] ∧
    (after (step (atElement 0x1000 2))).txq.length = 89 := by decide +kernel
theorem test_rrng_accepts : (after (step (issuing 0xA006884F))).run = .busy .elementRange ∧
    (after (step (issuing 0xA006884F))).stop = 2 := by decide +kernel
theorem test_rrng_range_order : (after (step (issuing 0xA004C84F))).cause = 3 ∧
    (after (step (issuing 0xA004C84F))).finfo = 0xA004C84F := by decide +kernel
theorem test_illegal_format_keeps_x1 : (after (step (issuing 0x60000108))).cause = 2 ∧
    (after (step (issuing 0x60000108))).x.x1 = 0x1000 := by decide +kernel
theorem test_withFetchWord : (after (step (State.reset.withFetchWord 32 0x100000FF))).x.x0 =
    0x8000000000000000 := by decide +kernel
theorem test_fault_unmapped : (after (step (atElement 0x1000 3))).faddr = 0x1006 := by
  decide +kernel
theorem test_fault_beyond : (after (step (atElement 0xFFFFFFFFFFFFFFFE 1))).cause = 5 ∧
    (after (step (atElement 0xFFFFFFFFFFFFFFFE 1))).faddr = 0 := by decide +kernel

/-! ### Witnesses for the statements' hypotheses -/

theorem witness_EncodeOfDecode : decode 0xA00FF8FF = .legal (.rrng ⟨.w64, 63⟩ .x7 .x7 .x7) := by
  decide

theorem witness_StepRunsTheDecodedCommand : (issuing 0xFFFFFFFF1000014C).mover = .host ∧
    (issuing 0xFFFFFFFF1000014C).run = .idle ∧
    (issuing 0xFFFFFFFF1000014C).host = .write 16 0xFFFFFFFF1000014C :: [] ∧
    decode ((0xFFFFFFFF1000014C : Word).setWidth 32) = .legal (.scale f1612 .x1) := by decide

theorem witness_IllegalCommandFaults : (issuing 0).mover = .host ∧ (issuing 0).run = .idle ∧
    (issuing 0).host = .write 16 0 :: [] ∧
    ∀ r ∈ opcodeRows, r.selects ((0 : Word).setWidth 32) = false := by decide

theorem witness_IllegalFormatFaults : (issuing 0x10000008).mover = .host ∧
    (issuing 0x10000008).run = .idle ∧ (issuing 0x10000008).host = .write 16 0x10000008 :: [] ∧
    (∃ r ∈ opcodeRows, r.selects ((0x10000008 : Word).setWidth 32) = true) ∧
    (formatOf ((0x10000008 : Word).setWidth 32)).w.bits - 1 <
      (formatOf ((0x10000008 : Word).setWidth 32)).n.toNat ∧
    wsOf 0x100000FF = 3 := by decide

/-- A host read is next in each run state. -/
theorem witness_HostReadReturnsTheRegister :
    ∀ r ∈ [Run.idle, .busy .finalText, .faulted],
      ({ base0 with run := r, sched := [.host], host := [.read 10] } : State).mover = .host ∧
      ({ base0 with run := r, sched := [.host], host := [.read 10] } : State).host =
        .read 10 :: [] := by decide

/-- The first and last number of every clause: 0 and 7, 8, 9, 10, 15, 17 and 31. -/
theorem witness_HostWriteTakesEffectInIdle :
    (∀ n ∈ [(0 : BitVec 5), 7, 8, 9, 10, 15, 17, 31],
      ({ base0 with host := [.write n 5] } : State).mover = .host ∧
      ({ base0 with host := [.write n 5] } : State).run = .idle ∧
      ({ base0 with host := [.write n 5] } : State).host = .write n 5 :: []) ∧
    (0 : BitVec 5) = (regBits .x0).setWidth 5 ∧ (7 : BitVec 5) = (regBits .x7).setWidth 5 ∧
    (∀ n ∈ [(10 : BitVec 5), 15, 17, 31], 10 ≤ n.toNat ∧ n ≠ 16) := by decide

theorem witness_HostWriteIsHeldOffOutsideIdle :
    ∀ n ∈ [(0 : BitVec 5), 9, 10, 16, 31], ∀ r ∈ [Run.busy .elementOne, .faulted],
      ({ base0 with run := r, sched := [.host], host := [.write n 5] } : State).mover = .host ∧
      ({ base0 with run := r, sched := [.host], host := [.write n 5] } : State).run ≠ .idle := by
  decide

theorem witness_StatusReflectsTheRunState :
    ({ base0 with host := [.write 10 5] } : State).mover = .host ∧
    ({ base0 with host := [.write 10 5] } : State).run = .idle ∧
    ({ base0 with run := .faulted, host := [.write 10 5] } : State).mover = .host ∧
    ({ base0 with run := .faulted, host := [.write 10 5] } : State).run ≠ .idle := by decide

/-- A write with no effect waits in FAULTED too (R140, R177). -/
theorem test_status_write_waits :
    step { base0 with run := .faulted, host := [.write 10 5] } =
      .next { base0 with run := .faulted, host := [.write 10 5], held := true } := rfl

/-- Valid formats at both ends of N, for the statements over valid formats: the Calculator's three,
`TOFIX`, `TOFLT`, their laws, bounds and round trip, and the render commands. -/
theorem witness_valid_formats : ∀ f ∈ [(⟨.w8, 0⟩ : QFormat), ⟨.w8, 7⟩, ⟨.w16, 15⟩, ⟨.w32, 31⟩,
    ⟨.w64, 0⟩, ⟨.w64, 63⟩], f.valid = true := by decide

/-- Operands for the clauses of `TofixSaturatesAndTruncates` that speak of NaN and infinities. -/
theorem witness_Tofix_specials : f32IsNaN 0x7F800001 ∧ f32IsNaN 0xFFFFFFFF ∧
    f32IsInf false 0x7F800000 ∧ f32IsInf true 0xFF800000 := by
  simp only [f32IsNaN, f32IsInf]; decide

/-- The value of the binary32 used below, from its three fields. -/
theorem f32Rat_of_fields {b : BitVec 32} {s : Bool} {e m : Nat} (hs : f32Sign b = s)
    (he : f32Exp b = e) (hm : f32Frac b = m) (h0 : e ≠ 0) :
    f32Rat b = (if s then -1 else 1) * ((2 ^ 23 + m : ℚ) * 2 ^ ((e : ℤ) - 150)) := by
  subst hs he hm
  simp [f32Rat, h0]

/-- The bounds of (16, 12): 8.0 is at the high bound, −8.0 at the low one (converted), the next
binary32 below −8.0 is under it (R104). -/
theorem witness_Tofix_bounds :
    f32Exp 0x41000000 ≠ 255 ∧ (2 : ℚ) ^ (f1612.w.bits - 1 - f1612.n.toNat) ≤ f32Rat 0x41000000 ∧
    f32Exp 0xC1000001 ≠ 255 ∧ f32Rat 0xC1000001 < -(2 : ℚ) ^ (f1612.w.bits - 1 - f1612.n.toNat) ∧
    f32Exp 0xC1000000 ≠ 255 ∧ -(2 : ℚ) ^ (f1612.w.bits - 1 - f1612.n.toNat) ≤ f32Rat 0xC1000000 ∧
    f32Rat 0xC1000000 < (2 : ℚ) ^ (f1612.w.bits - 1 - f1612.n.toNat) := by
  have hk : f1612.w.bits - 1 - f1612.n.toNat = 3 := by decide
  rw [hk, f32Rat_of_fields (b := 0x41000000) (s := false) (e := 130) (m := 0) (by decide)
      (by decide) (by decide) (by decide),
    f32Rat_of_fields (b := 0xC1000001) (s := true) (e := 130) (m := 1) (by decide) (by decide)
      (by decide) (by decide),
    f32Rat_of_fields (b := 0xC1000000) (s := true) (e := 130) (m := 0) (by decide) (by decide)
      (by decide) (by decide)]
  refine ⟨by decide, by norm_num, by decide, by norm_num, by decide, by norm_num, by norm_num⟩

/-- Operands for the laws of `to_fixed` on (16, 12): beyond each bound, within them, and a pair in
order. -/
theorem witness_ToFixedLaws : f32Lt (floatMaxBits f1612) 0x7F800000 ∧
    f32Lt 0xFF800000 (floatMinBits f1612) ∧ f32Lt 0xC1000000 0x41000000 ∧
    f32Exp 0xC1000000 ≠ 255 ∧ f32Rat (floatMinBits f1612) ≤ f32Rat 0xC1000000 ∧
    f32Rat 0xC1000000 < f32Rat (floatMaxBits f1612) := by
  have hM : floatMaxBits f1612 = 0x41000000 := by decide
  have hm : floatMinBits f1612 = 0xC1000000 := by decide
  have h1 := f32Rat_of_fields (b := 0x41000000) (s := false) (e := 130) (m := 0) (by decide)
      (by decide) (by decide) (by decide)
  have h2 := f32Rat_of_fields (b := 0xC1000000) (s := true) (e := 130) (m := 0) (by decide)
      (by decide) (by decide) (by decide)
  rw [hM, hm]
  refine ⟨⟨?_, ?_, .inr (.inl ⟨?_, ?_⟩)⟩, ⟨?_, ?_, .inl ⟨?_, ?_⟩⟩,
    ⟨?_, ?_, .inr (.inr ⟨by decide, by decide, ?_⟩)⟩, by decide, le_refl _, ?_⟩
  any_goals (simp only [f32IsNaN, f32IsInf]; decide)
  all_goals (rw [h1, h2]; norm_num)

/-- A tie of R111: 2^24 + 1 lies half way between two integers with 24 significant bits, and has
more than 24 bits. -/
theorem witness_RneIsNearestTiesToEven : has24Bits 16777218 ∧ (16777218 : ℤ) ≠ rne24 16777217 ∧
    |(16777217 : ℤ) - 16777218| = |16777217 - rne24 16777217| ∧
    24 < Nat.size (16777217 : ℤ).natAbs ∧ has24Bits 12 ∧ (12 : ℤ) ≤ 16777217 := by
  have hr : rne24 16777217 = 16777216 := by decide +kernel
  rw [hr]
  exact ⟨⟨8388609, 1, by decide, by decide⟩, by decide, by decide, by decide +kernel,
    ⟨12, 0, by decide, by decide⟩, by decide⟩

/-- The operand of `TofltDividesTheRoundedValue` for both clauses: 0 and not 0. -/
theorem witness_Toflt_clauses : rne24 0 = 0 ∧ rne24 (-1) ≠ 0 := by decide

/-- Both ends of the format's values. -/
theorem witness_inWidth : inWidth .w8 (-128) ∧ inWidth .w8 127 ∧ inWidth .w64 (2 ^ 63 - 1) := by
  simp only [inWidth, fixedMin, fixedMax, Width.bits]; decide

theorem witness_DecimalNumeralIsExact : ([] : List Byte).length ≤ 3 ∧
    ([chQ, chQ, chQ] : List Byte).length ≤ 3 := by decide

theorem witness_ValueTextIsNearestDecimal : f32Exp 0x34800000 ≠ 255 := by decide

theorem witness_TagFieldShowsFractionalBits : tagField 9 = [0x51, 0x39, 0x20] ∧
    tagField 10 = [0x51, 0x31, 0x30] ∧ tagField 63 = [0x51, 0x36, 0x33] := by decide +kernel

/-- `RVAL`, `RELT` and `RRNG` from a quiet IDLE state with a valid format; elements 1 and 2 of the
array at 0x1000 can be read. -/
theorem witness_render_commands : f1615.valid = true ∧ base0.sched = [] ∧ base0.txq = [] ∧
    base0.quiet ∧ base0.run = .idle ∧
    elementAt base0.mem f1615.w (base0.x.get .x1) (base0.x.get .x3) = .ok 16384 := by
  refine ⟨by decide, rfl, rfl, ⟨rfl, rfl⟩, rfl, by decide +kernel⟩

theorem witness_RrngAcceptsOrRefusesItsRange :
    (base0.x.get .x2).toNat ≤ (base0.x.get .x3).toNat ∧
    (base0.x.get .x2).toNat ≤ (base0.x.get .x2).toNat ∧
    (base0.x.get .x2).toNat < (base0.x.get .x3).toNat := by decide

theorem witness_RrngEmitsTheWholeRange :
    (2 : ℕ) = (base0.x.get .x3).toNat - (base0.x.get .x2).toNat + 1 ∧
    (rangeText base0 f1615 (base0.x.get .x1) 2 (base0.x.get .x2)).isSome = true := by
  decide +kernel

/-- Indices 1 and 2 can be read, index 3 cannot; and a range that faults at once. -/
theorem witness_RrngFaultLeavesWholeLines :
    (base0.x.get .x2).toNat + 2 ≤ (base0.x.get .x7).toNat ∧
    (rangeText base0 f1615 (base0.x.get .x1) 2 (base0.x.get .x2)).isSome = true ∧
    elementAt base0.mem f1615.w (base0.x.get .x1) (base0.x.get .x2 + BitVec.ofNat 64 2) =
      .error .accessFault ∧
    elementAt base0.mem f1615.w (base0.x.get .x2) (base0.x.get .x2 + BitVec.ofNat 64 0) =
      .error .accessMisaligned := by decide +kernel

/-- One state for each clause of the access faults. -/
theorem witness_AccessFaultsAreTaken :
    ((atElement 0x1001 0).run = .busy .elementRange ∧ (atElement 0x1001 0).sched = [] ∧
      (0x1001 + 0 * 2) % 2 ≠ 0) ∧
    ((0xFFFFFFFFFFFFFFFE + 1 * 2) % 2 = 0 ∧ 2 ^ 64 < 0xFFFFFFFFFFFFFFFE + 1 * 2 + 2) ∧
    ((0x1000 + 3 * 2) % 2 = 0 ∧ 0x1000 + 3 * 2 + 2 ≤ 2 ^ 64 ∧
      memByte base0.mem (0x1000 + 3 * 2 + 0) = none) := by decide +kernel

/-- `base0` with another history, other hidden values and one more mapped byte. -/
def base1 : State :=
  { base0 with txt := [1], stop := 9, cmd := 7, mem := base0.mem ++ [(0x1006, 0x55)] }

/-- Two states of different memories that agree on what `RELT` of element 2 reads. -/
theorem witness_EmittedTextDependsOnInputsOnly :
    base1.quiet ∧ base0.quiet ∧ base1.run = .idle ∧ base0.run = .idle ∧ base1.mem ≠ base0.mem ∧
    (∀ r ∈ sources (.relt f1615 .x1 .x3), base1.x.get r = base0.x.get r) ∧
    base1.name0 = base0.name0 ∧ base1.name1 = base0.name1 ∧
    (∀ a, namesByte (.relt f1615 .x1 .x3) base1.x a → memByte base1.mem a = memByte base0.mem a) :=
  ⟨⟨rfl, rfl⟩, ⟨rfl, rfl⟩, rfl, rfl, by decide, fun _ _ => rfl, rfl, rfl, by
    rintro a ⟨k, hk, rfl⟩
    exact (by decide : ∀ k < 2, memByte base1.mem (0x1004 + k) = memByte base0.mem (0x1004 + k)) k hk⟩

theorem witness_OnlyTheDestinationRegisterChanges :
    (after (exec (.scale f1612 .x1) base0)).x.x1 = 4096 ∧
    destination (.scale f1612 .x1) ≠ some .x0 ∧ destination (.scale f1612 .x1) = some .x1 := by
  decide +kernel

/-- A BUSY state that meets the invariant and steps, with nothing scheduled. -/
theorem witness_StepKeepsTheInvariant : (atElement 0x1000 2).Inv ∧
    (atElement 0x1000 2).run = .busy .elementRange ∧ (atElement 0x1000 2).sched = [] ∧
    (after (step (atElement 0x1000 2))).run = .busy .rangeLine :=
  ⟨⟨⟨rfl, rfl, rfl⟩, rfl, ⟨by decide, by decide⟩, by decide, by decide⟩, rfl, rfl,
    by decide +kernel⟩

theorem witness_FaultEntryWritesOnlyTheRecord : (atElement 0x1001 0).run ≠ .faulted ∧
    (after (step (atElement 0x1001 0))).run = .faulted := by decide +kernel

/-- A FAULTED state that a host write is presented to, and one that is reset. -/
theorem witness_OnlyResetLeavesFaulted :
    ({ base0 with run := .faulted, host := [.write 0 1] } : State).mover ≠ .reset ∧
    ({ base0 with run := .faulted, sched := [.reset] } : State).mover = .reset := by decide

theorem witness_ResetClearsTheCore :
    ({ base0 with run := .busy .rangeLine, sched := [.reset] } : State).mover = .reset := by decide

theorem witness_ResetCutsTheTextAtAnyByte :
    ({ base0 with sched := List.replicate 3 Move.core ++ [.reset] } : State).sched =
      List.replicate 3 .core ++ [.reset] := rfl

theorem witness_BusyKeepsOperands : (atElement 0x1000 2).run = .busy .elementRange ∧
    (atElement 0x1000 2).mover ≠ .reset := by decide

/-- A step of another agent, and one of the core. -/
theorem witness_OnlyOtherAgentsChangeMemory :
    ({ base0 with sched := [.poke 0x1004 (some 7)] } : State).mover = .poke 0x1004 (some 7) ∧
    (∀ a b, (atElement 0x1000 2).mover ≠ .poke a b) :=
  ⟨rfl, fun _ _ h => by cases h⟩

/-- Two mapped bytes, and a mapped one followed by an unmapped one. -/
theorem witness_MemReadIsLittleEndian :
    (∀ k, k < 2 → memByte base0.mem (0x1004 + k) =
      some ((fun k => if k = 0 then (0x00 : Byte) else 0x40) k)) ∧
    memByte base0.mem (0x1005 + 1) = none := by decide

end Sys2Proof.Tests
end

/-! PROOFS. The invariant of the state: what each operation asks for and gives back, and that every
step keeps it (O39, O38), with the values of the reset table (O43). -/

namespace Sys2Proof.Machine

/-! ### The parts of the invariant that do not speak of the run state -/

/-- What every operation that enters a new run state starts from: no fault is on record, memory is
canonical and a held-off mark belongs to a transfer. -/
structure State.Ready (s : State) : Prop where
  cause : s.cause = 0
  finfo : s.finfo = 0
  faddr : s.faddr = 0
  memory : Memory.wf s.mem = true
  held : s.held = true → s.host ≠ []

section Operations

variable {s : State}

/-- Outside FAULTED the fault record is clear (R28 to R30). -/
theorem State.Inv.ready (h : s.Inv) (hr : s.run ≠ .faulted) : s.Ready := by
  have hrec := h.record
  cases hrun : s.run with
  | faulted => exact absurd hrun hr
  | idle =>
    simp only [State.recordOk, hrun] at hrec
    obtain ⟨hc, hi, ha⟩ := hrec
    exact ⟨hc, hi, ha, h.memory, h.held⟩
  | busy p =>
    simp only [State.recordOk, hrun] at hrec
    obtain ⟨hc, hi, ha⟩ := hrec
    exact ⟨hc, hi, ha, h.memory, h.held⟩

theorem State.Inv.txq_of_idle (h : s.Inv) (hr : s.run = .idle) : s.txq = [] := by
  simpa only [State.textOk, hr] using h.text

theorem State.Ready.logRead (h : s.Ready) (a n : Nat) : (s.logRead a n).Ready :=
  ⟨h.cause, h.finfo, h.faddr, h.memory, h.held⟩

theorem State.Ready.handByte (h : s.Ready) (b : Byte) (l : List Byte) : (s.handByte b l).Ready :=
  ⟨h.cause, h.finfo, h.faddr, h.memory, h.held⟩

/-! ### Operations that enter a run state -/

theorem State.Ready.complete_inv (h : s.Ready) (hq : s.txq = []) : s.complete.Inv :=
  ⟨⟨h.cause, h.finfo, h.faddr⟩, hq, trivial, h.memory, h.held⟩

theorem State.Ready.startFinalText_inv (h : s.Ready) {l : List Byte} (hl : l ≠ []) :
    (s.startText l .finalText).Inv :=
  ⟨⟨h.cause, h.finfo, h.faddr⟩, hl, trivial, h.memory, h.held⟩

theorem State.Ready.startRangeLine_inv (h : s.Ready) {l : List Byte} (hl : l ≠ [])
    (hf : s.fmt.valid = true) (hi : s.idx.toNat ≤ s.stop.toNat) :
    (s.startText l .rangeLine).Inv :=
  ⟨⟨h.cause, h.finfo, h.faddr⟩, hl, ⟨hf, hi⟩, h.memory, h.held⟩

theorem State.Ready.loadElement_inv (h : s.Ready) (hq : s.txq = []) {f : QFormat}
    (hf : f.valid = true) (base idx : Word) : (s.loadElement f base idx).Inv :=
  ⟨⟨h.cause, h.finfo, h.faddr⟩, hq, hf, h.memory, h.held⟩

theorem State.Ready.loadRange_inv (h : s.Ready) (hq : s.txq = []) {f : QFormat}
    (hf : f.valid = true) (base : Word) {start stop : Word} (hle : start.toNat ≤ stop.toNat) :
    (s.loadRange f base start stop).Inv :=
  ⟨⟨h.cause, h.finfo, h.faddr⟩, hq, ⟨hf, hle⟩, h.memory, h.held⟩

/-- The loop goes on only below `STOP`, so the next index is not beyond it and does not wrap
(R130). -/
theorem State.Ready.nextIndex_inv (h : s.Ready) (hq : s.txq = []) (hf : s.fmt.valid = true)
    (hi : s.idx.toNat ≤ s.stop.toNat) (hne : s.idx ≠ s.stop) : s.nextIndex.Inv := by
  have hnext : (s.idx + 1).toNat ≤ s.stop.toNat := by bv_omega
  exact ⟨⟨h.cause, h.finfo, h.faddr⟩, hq, ⟨hf, hnext⟩, h.memory, h.held⟩

/-- Fault entry records the 32-bit command word zero-extended (R149). -/
theorem State.Ready.raise_inv (h : s.Ready) (hq : s.txq = []) (c : FaultCause) (a : Word) :
    (s.raise c a).Inv := by
  have hinfo : (s.cmd.setWidth 64 : Word).toNat < 2 ^ 32 := by
    rw [BitVec.toNat_setWidth]
    exact lt_of_le_of_lt (Nat.mod_le _ _) s.cmd.isLt
  exact ⟨⟨⟨c, a, rfl, rfl⟩, hinfo⟩, hq, trivial, h.memory, h.held⟩

theorem reset_inv : State.reset.Inv :=
  ⟨⟨rfl, rfl, rfl⟩, rfl, trivial, reset_mem_wf, nofun⟩

theorem State.Inv.applyReset (h : s.Inv) : s.applyReset.Inv :=
  ⟨reset_inv.record, reset_inv.text, reset_inv.loop, h.memory, nofun⟩

/-! ### Operations that stay in their run state -/

theorem State.Inv.setSched (h : s.Inv) (ms : List Move) : (s.setSched ms).Inv :=
  ⟨h.record, h.text, h.loop, h.memory, h.held⟩

theorem State.Inv.setReg (h : s.Inv) (r : Reg) (v : Word) : (s.setReg r v).Inv :=
  ⟨h.record, h.text, h.loop, h.memory, h.held⟩

theorem State.Inv.setName0 (h : s.Inv) (v : Word) : (s.setName0 v).Inv :=
  ⟨h.record, h.text, h.loop, h.memory, h.held⟩

theorem State.Inv.setName1 (h : s.Inv) (v : Word) : (s.setName1 v).Inv :=
  ⟨h.record, h.text, h.loop, h.memory, h.held⟩

theorem State.Inv.latch (h : s.Inv) (c : Cmd) : (s.latch c).Inv :=
  ⟨h.record, h.text, h.loop, h.memory, h.held⟩

theorem State.Inv.answer (h : s.Inv) (n : BitVec 5) (v : Word) : (s.answer n v).Inv :=
  ⟨h.record, h.text, h.loop, h.memory, h.held⟩

theorem State.Inv.setHost (h : s.Inv) (rest : List Transfer) : (s.setHost rest).Inv :=
  ⟨h.record, h.text, h.loop, h.memory, nofun⟩

theorem State.Inv.hold (h : s.Inv) (hh : s.host ≠ []) : s.hold.Inv :=
  ⟨h.record, h.text, h.loop, h.memory, fun _ => hh⟩

theorem State.Inv.poke (h : s.Inv) (a : Word) (b : Option Byte) : (s.poke a b).Inv :=
  ⟨h.record, h.text, h.loop, memPoke_wf a b h.memory, h.held⟩

/-! ### The core -/

theorem elementLine_ne_nil (f : QFormat) (name0 name1 i : Word) (v : Int) :
    elementLine f name0 name1 i v ≠ [] := by
  simp [elementLine]

/-- The element step of `RELT` (R129). -/
theorem State.Ready.elementStep_final_inv (h : s.Ready) (hq : s.txq = []) :
    (elementStep s .finalText).Inv := by
  rcases elementStep_cases s .finalText with ⟨v, -, hs⟩ | ⟨c, -, hs | hs⟩ <;> rw [hs]
  · exact (h.logRead _ _).startFinalText_inv (elementLine_ne_nil _ _ _ _ _)
  · exact h.raise_inv hq _ _
  · exact (h.logRead _ _).raise_inv hq _ _

/-- The element step of `RRNG` (R130). -/
theorem State.Ready.elementStep_range_inv (h : s.Ready) (hq : s.txq = [])
    (hf : s.fmt.valid = true) (hi : s.idx.toNat ≤ s.stop.toNat) :
    (elementStep s .rangeLine).Inv := by
  rcases elementStep_cases s .rangeLine with ⟨v, -, hs⟩ | ⟨c, -, hs | hs⟩ <;> rw [hs]
  · exact (h.logRead _ _).startRangeLine_inv (elementLine_ne_nil _ _ _ _ _) hf hi
  · exact h.raise_inv hq _ _
  · exact (h.logRead _ _).raise_inv hq _ _

/-- Handing over a byte that is not the last leaves the command where it stands. -/
theorem State.Inv.handByte (h : s.Inv) {p : Phase} (hr : s.run = .busy p)
    (hp : p = .rangeLine ∨ p = .finalText) (b c : Byte) (l : List Byte) :
    (s.handByte b (c :: l)).Inv := by
  refine ⟨h.record, ?_, h.loop, h.memory, h.held⟩
  rcases hp with rfl | rfl <;> simp [State.textOk, hr]

/-- The last byte of a line of a range: the terminator or the next index follows (R130). -/
theorem State.Inv.lastByte_range (h : s.Inv) (hr : s.run = .busy .rangeLine) (b : Byte) :
    (textDone (s.handByte b [])).Inv := by
  have hready : (s.handByte b []).Ready := (h.ready (by simp [hr])).handByte b []
  obtain ⟨hf, hi⟩ : s.fmt.valid = true ∧ s.idx.toNat ≤ s.stop.toNat := by
    simpa only [State.loopOk, hr] using h.loop
  by_cases he : s.idx = s.stop
  · rw [textDone_range_end (s := s.handByte b []) hr he]
    exact hready.startFinalText_inv (by decide)
  · rw [textDone_range_next (s := s.handByte b []) hr he]
    exact hready.nextIndex_inv rfl hf hi he

/-- The last byte of a command's last text completes it. -/
theorem State.Inv.lastByte_final (h : s.Inv) (hr : s.run = .busy .finalText) (b : Byte) :
    (textDone (s.handByte b [])).Inv := by
  rw [textDone_final (s := s.handByte b []) hr]
  exact ((h.ready (by simp [hr])).handByte b []).complete_inv rfl

theorem handOver_inv (h : s.Inv) {p : Phase} (hr : s.run = .busy p)
    (hp : p = .rangeLine ∨ p = .finalText) : (handOver s).Inv := by
  have hq : s.txq ≠ [] := by
    rcases hp with rfl | rfl <;> simpa only [State.textOk, hr] using h.text
  match hl : s.txq with
  | [] => exact absurd hl hq
  | b :: c :: l =>
    rw [handOver_more hl]
    exact h.handByte hr hp b c l
  | [b] =>
    rw [handOver_last hl]
    rcases hp with rfl | rfl
    · exact h.lastByte_range hr b
    · exact h.lastByte_final hr b

/-! ### What the core does in each run state -/

theorem coreStep_of_not_busy (hr : ∀ p, s.run ≠ .busy p) : coreStep s = s := by
  cases h : s.run with
  | idle => simp only [coreStep, h]
  | faulted => simp only [coreStep, h]
  | busy p => exact absurd h (hr p)

theorem coreStep_elementOne (hr : s.run = .busy .elementOne) :
    coreStep s = elementStep s .finalText := by
  simp only [coreStep, hr]

theorem coreStep_elementRange (hr : s.run = .busy .elementRange) :
    coreStep s = elementStep s .rangeLine := by
  simp only [coreStep, hr]

theorem coreStep_handOver {p : Phase} (hr : s.run = .busy p)
    (hp : p = .rangeLine ∨ p = .finalText) : coreStep s = handOver s := by
  rcases hp with rfl | rfl <;> simp only [coreStep, hr]

/-- Everything a step of the core can do. -/
theorem coreStep_cases (s : State) :
    coreStep s = s ∨
    (s.run = .busy .elementOne ∧ coreStep s = elementStep s .finalText) ∨
    (s.run = .busy .elementRange ∧ coreStep s = elementStep s .rangeLine) ∨
    (∃ p, s.run = .busy p ∧ (p = .rangeLine ∨ p = .finalText) ∧ coreStep s = handOver s) := by
  cases hr : s.run with
  | idle => exact .inl (coreStep_of_not_busy (by simp [hr]))
  | faulted => exact .inl (coreStep_of_not_busy (by simp [hr]))
  | busy p =>
    cases p with
    | elementOne => exact .inr (.inl ⟨rfl, coreStep_elementOne hr⟩)
    | elementRange => exact .inr (.inr (.inl ⟨rfl, coreStep_elementRange hr⟩))
    | rangeLine => exact .inr (.inr (.inr ⟨_, rfl, .inl rfl, coreStep_handOver hr (.inl rfl)⟩))
    | finalText => exact .inr (.inr (.inr ⟨_, rfl, .inr rfl, coreStep_handOver hr (.inr rfl)⟩))

theorem coreStep_inv (h : s.Inv) : (coreStep s).Inv := by
  rcases coreStep_cases s with he | ⟨hr, he⟩ | ⟨hr, he⟩ | ⟨p, hr, hp, he⟩ <;> rw [he]
  · exact h
  · have hq : s.txq = [] := by simpa only [State.textOk, hr] using h.text
    exact (h.ready (by simp [hr])).elementStep_final_inv hq
  · have hq : s.txq = [] := by simpa only [State.textOk, hr] using h.text
    obtain ⟨hf, hi⟩ : s.fmt.valid = true ∧ s.idx.toNat ≤ s.stop.toNat := by
      simpa only [State.loopOk, hr] using h.loop
    exact (h.ready (by simp [hr])).elementStep_range_inv hq hf hi
  · exact handOver_inv h hr hp

/-! ### The host and the commands -/

/-- Decode hands on no instruction with an invalid format (R76). -/
theorem wf_of_decode_legal {c : Cmd} {i : Instr} (h : decode c = .legal i) : i.wf = true := by
  unfold decode at h
  split at h
  · cases h
  · split_ifs at h with hwf
    obtain rfl := Decoded.legal.inj h
    exact hwf

/-- A host turn that executes no command keeps the invariant. -/
theorem hostTurn_done_inv {t : State} (h : s.Inv) (ht : hostTurn s = .done t) : t.Inv := by
  rcases hostTurn_done_cases ht with ⟨-, rfl⟩ | ⟨n, rest, -, rfl⟩ | ⟨n, d, rest, hh, hw⟩
  · exact h
  · exact (h.setHost rest).answer _ _
  · rcases hw with ⟨-, rfl⟩ | ⟨hr, rfl | ⟨r, -, rfl⟩ | ⟨-, rfl⟩ | ⟨-, rfl⟩ | ⟨-, hc⟩⟩
    · exact h.hold (by simp [hh])
    · exact h.setHost rest
    · exact (h.setHost rest).setReg _ _
    · exact (h.setHost rest).setName0 _
    · exact (h.setHost rest).setName1 _
    · have hl : ((s.setHost rest).latch (d.setWidth 32)).Inv := (h.setHost rest).latch _
      have hready := hl.ready (by simp [hr])
      rcases hc with ⟨-, rfl⟩ | ⟨-, rfl⟩ <;> exact hready.raise_inv (h.txq_of_idle hr) _ _

/-- Executing a legal command in IDLE keeps the invariant. -/
theorem exec_inv {i : Instr} {t : State} (h : s.Inv) (hr : s.run = .idle) (hwf : i.wf = true)
    (hx : exec i s = .next t) : t.Inv := by
  have hready := h.ready (by simp [hr])
  have hq := h.txq_of_idle hr
  rcases exec_cases hx with ⟨rd, v, rfl⟩ | ⟨f, rs1, rfl, rfl⟩ | ⟨f, rs1, rs2, rfl, rfl⟩ |
    ⟨f, rs1, rs2, rs3, rfl, -, rfl⟩ | ⟨f, rs1, rs2, rs3, rfl, hle, rfl⟩
  · exact h.setReg rd v
  · exact hready.startFinalText_inv (by simp [valueLine])
  · exact hready.loadElement_inv hq hwf _ _
  · exact hready.raise_inv hq _ _
  · exact hready.loadRange_inv hq hwf _ hle

/-- A host turn that executes a command does so in a state that meets the invariant, in IDLE, on an
instruction with a valid format. -/
theorem hostTurn_run_inv {i : Instr} {u t : State} (h : s.Inv) (hu : hostTurn s = .run i u)
    (hx : exec i u = .next t) : t.Inv := by
  obtain ⟨n, d, rest, -, -, hr, hd, rfl⟩ := hostTurn_run_cases hu
  exact exec_inv ((h.setHost rest).latch _) hr (wf_of_decode_legal hd) hx

end Operations

/-! ### Every step -/

/-- Settles O39: one lemma for each agent that can move. -/
theorem stepKeepsTheInvariant : Obligations.StepKeepsTheInvariant := by
  intro s t h hstep
  obtain ⟨s0, hs0, hmove⟩ := step_cases hstep
  have h0 : s0.Inv := by
    rcases hs0 with ⟨-, rfl⟩ | ⟨m, ms, -, rfl⟩
    · exact h
    · exact h.setSched ms
  rcases hmove with ⟨-, rfl⟩ | ⟨-, ht⟩ | ⟨-, i, u, hu, hx⟩ | ⟨-, rfl⟩ | ⟨a, b, -, rfl⟩
  · exact coreStep_inv h0
  · exact hostTurn_done_inv h0 ht
  · exact hostTurn_run_inv h0 hu hx
  · exact h0.applyReset
  · exact h0.poke a b

/-- Settles O38. -/
theorem resetMeetsTheInvariant : Obligations.ResetMeetsTheInvariant := reset_inv

/-- Settles O43, register by register. -/
theorem resetStateIsTheSpecs : Obligations.ResetStateIsTheSpecs := by
  refine ⟨fun r => ?_, rfl, rfl, rfl, ?_, rfl, rfl, rfl, rfl⟩
  · cases r <;> rfl
  · decide

end Sys2Proof.Machine

/-! PROOFS. What a command and a step leave unchanged: the registers but `rd` (O36), the operands of
a running command (O45) and the text but for one byte (O48). -/

namespace Sys2Proof.Machine

/-! ### Acceptance -/

/-- A command with a destination writes it and nothing else. -/
theorem exec_of_destination {i : Instr} {rd : Reg} (h : destination i = some rd) (s : State) :
    ∃ v, exec i s = .next (s.setReg rd v) := by
  cases i <;> cases h <;> exact ⟨_, rfl⟩

/-- What every command leaves as it was at its acceptance. -/
theorem exec_frame {i : Instr} {s t : State} (h : exec i s = .next t) :
    t.name0 = s.name0 ∧ t.name1 = s.name1 ∧ t.mem = s.mem ∧ t.txt = s.txt ∧ t.reads = s.reads := by
  rcases exec_cases h with ⟨rd, v, rfl⟩ | ⟨f, rs1, -, rfl⟩ | ⟨f, rs1, rs2, -, rfl⟩ |
    ⟨f, rs1, rs2, rs3, -, -, rfl⟩ | ⟨f, rs1, rs2, rs3, -, -, rfl⟩ <;>
    exact ⟨rfl, rfl, rfl, rfl, rfl⟩

/-- A command without a destination writes no general register. -/
theorem exec_x_of_no_destination {i : Instr} {s t : State} (hd : destination i = none)
    (h : exec i s = .next t) : t.x = s.x := by
  cases i with
  | rval f rs1 => exact (Host.Outcome.next.inj h) ▸ rfl
  | relt f rs1 rs2 => exact (Host.Outcome.next.inj h) ▸ rfl
  | rrng f rs1 rs2 rs3 =>
    simp only [exec, execRrng] at h
    split_ifs at h <;> exact (Host.Outcome.next.inj h) ▸ rfl
  | _ => cases hd

/-- Settles O36, by whether the command has a destination. -/
theorem onlyTheDestinationRegisterChanges : Obligations.OnlyTheDestinationRegisterChanges := by
  intro i s t h
  obtain ⟨h0, h1, hm, ht, hr⟩ := exec_frame h
  cases hd : destination i with
  | none =>
    have hx := exec_x_of_no_destination hd h
    exact ⟨fun r _ => by rw [hx], h0, h1, hm, ht, hr, nofun⟩
  | some rd =>
    obtain ⟨v, hv⟩ := exec_of_destination hd s
    obtain rfl := Host.Outcome.next.inj (hv.symm.trans h)
    refine ⟨fun r hne => ?_, h0, h1, hm, ht, hr, fun _ _ => ⟨rfl, rfl, rfl, rfl⟩⟩
    exact RegFile.get_set_ne s.x v fun he => hne (by rw [he])

/-! ### The operands of a running command -/

/-- The registers, the name, the command word and the operands latched for the running command. -/
structure State.SameOperands (s t : State) : Prop where
  x : t.x = s.x
  name0 : t.name0 = s.name0
  name1 : t.name1 = s.name1
  cmd : t.cmd = s.cmd
  fmt : t.fmt = s.fmt
  base : t.base = s.base
  stop : t.stop = s.stop

theorem State.SameOperands.refl (s : State) : s.SameOperands s :=
  ⟨rfl, rfl, rfl, rfl, rfl, rfl, rfl⟩

theorem elementStep_sameOperands (s : State) (p : Phase) : s.SameOperands (elementStep s p) := by
  rcases elementStep_cases s p with ⟨v, -, hs⟩ | ⟨c, -, hs | hs⟩ <;> rw [hs] <;>
    exact ⟨rfl, rfl, rfl, rfl, rfl, rfl, rfl⟩

/-- Everything the end of a text can do. -/
theorem textDone_cases (s : State) :
    textDone s = s ∨ textDone s = s.complete ∨ textDone s = s.startText termLine .finalText ∨
      textDone s = s.nextIndex := by
  unfold textDone
  split
  · split_ifs
    · exact .inr (.inr (.inl rfl))
    · exact .inr (.inr (.inr rfl))
  · exact .inr (.inl rfl)
  all_goals exact .inl rfl

theorem textDone_sameOperands (s : State) : s.SameOperands (textDone s) := by
  rcases textDone_cases s with hs | hs | hs | hs <;> rw [hs] <;>
    exact ⟨rfl, rfl, rfl, rfl, rfl, rfl, rfl⟩

theorem textDone_txt (s : State) : (textDone s).txt = s.txt := by
  rcases textDone_cases s with hs | hs | hs | hs <;> rw [hs] <;> rfl

theorem handOver_sameOperands (s : State) : s.SameOperands (handOver s) := by
  match hl : s.txq with
  | [] =>
    simp only [handOver, hl]
    exact textDone_sameOperands s
  | [b] =>
    rw [handOver_last hl]
    obtain ⟨hx, h0, h1, hc, hf, hb, hs⟩ := textDone_sameOperands (s.handByte b [])
    exact ⟨hx, h0, h1, hc, hf, hb, hs⟩
  | b :: c :: l =>
    rw [handOver_more hl]
    exact ⟨rfl, rfl, rfl, rfl, rfl, rfl, rfl⟩

theorem coreStep_sameOperands (s : State) : s.SameOperands (coreStep s) := by
  rcases coreStep_cases s with he | ⟨-, he⟩ | ⟨-, he⟩ | ⟨p, -, -, he⟩ <;> rw [he]
  · exact .refl s
  · exact elementStep_sameOperands s _
  · exact elementStep_sameOperands s _
  · exact handOver_sameOperands s

/-- Outside IDLE a host turn only answers a read or holds a write off (R32). -/
theorem hostTurn_done_outside_idle {s t : State} (hr : s.run ≠ .idle) (h : hostTurn s = .done t) :
    t = s ∨ t = s.hold ∨ ∃ n v rest, t = (s.setHost rest).answer n v := by
  rcases hostTurn_done_cases h with ⟨-, rfl⟩ | ⟨n, rest, -, rfl⟩ | ⟨n, d, rest, -, hw⟩
  · exact .inl rfl
  · exact .inr (.inr ⟨_, _, _, rfl⟩)
  · rcases hw with ⟨-, rfl⟩ | ⟨hi, -⟩
    · exact .inr (.inl rfl)
    · exact absurd hi hr

theorem hostTurn_sameOperands {s t : State} (hr : s.run ≠ .idle) (h : hostTurn s = .done t) :
    s.SameOperands t := by
  rcases hostTurn_done_outside_idle hr h with rfl | rfl | ⟨n, v, rest, rfl⟩ <;>
    exact ⟨rfl, rfl, rfl, rfl, rfl, rfl, rfl⟩

/-- Outside IDLE a step other than reset keeps the operands. -/
theorem step_sameOperands {s t : State} (hr : s.run ≠ .idle) (hm : s.mover ≠ .reset)
    (hstep : step s = .next t) : s.SameOperands t := by
  obtain ⟨s0, hs0, hmove⟩ := step_cases hstep
  obtain ⟨hr0, hsame⟩ : s0.run ≠ .idle ∧ (s0.SameOperands t → s.SameOperands t) := by
    rcases hs0 with ⟨-, rfl⟩ | ⟨m, ms, -, rfl⟩
    · exact ⟨hr, id⟩
    · exact ⟨hr, fun ⟨hx, h0, h1, hc, hf, hb, hs⟩ => ⟨hx, h0, h1, hc, hf, hb, hs⟩⟩
  apply hsame
  rcases hmove with ⟨-, rfl⟩ | ⟨-, ht⟩ | ⟨-, i, u, hu, -⟩ | ⟨hreset, -⟩ | ⟨a, b, -, rfl⟩
  · exact coreStep_sameOperands s0
  · exact hostTurn_sameOperands hr0 ht
  · obtain ⟨n, d, rest, -, -, hidle, -, -⟩ := hostTurn_run_cases hu
    exact absurd hidle hr0
  · exact absurd hreset hm
  · exact ⟨rfl, rfl, rfl, rfl, rfl, rfl, rfl⟩

/-- Settles O45: BUSY is outside IDLE, where no agent but reset touches the operands. -/
theorem busyKeepsOperands : Obligations.BusyKeepsOperands := by
  intro s t p hr hm hstep
  obtain ⟨hx, h0, h1, hc, hf, hb, hs⟩ := step_sameOperands (by simp [hr]) hm hstep
  exact ⟨hx, h0, h1, hc, hf, hb, hs⟩

/-! ### The text -/

theorem elementStep_txt (s : State) (p : Phase) : (elementStep s p).txt = s.txt := by
  rcases elementStep_cases s p with ⟨v, -, hs⟩ | ⟨c, -, hs | hs⟩ <;> rw [hs] <;> rfl

/-- Handing over appends the head of the text port, if there is one (R36). -/
theorem handOver_txt (s : State) : (handOver s).txt = s.txt ∨
    ∃ b l, s.txq = b :: l ∧ (handOver s).txt = s.txt ++ [b] := by
  match hl : s.txq with
  | [] =>
    simp only [handOver, hl]
    exact .inl (textDone_txt s)
  | [b] =>
    rw [handOver_last hl]
    exact .inr ⟨b, [], rfl, textDone_txt _⟩
  | b :: c :: l =>
    rw [handOver_more hl]
    exact .inr ⟨b, c :: l, rfl, rfl⟩

theorem coreStep_txt (s : State) : (coreStep s).txt = s.txt ∨
    ((s.run = .busy .rangeLine ∨ s.run = .busy .finalText) ∧
      ∃ b l, s.txq = b :: l ∧ (coreStep s).txt = s.txt ++ [b]) := by
  rcases coreStep_cases s with he | ⟨-, he⟩ | ⟨-, he⟩ | ⟨p, hr, hp, he⟩ <;> rw [he]
  · exact .inl rfl
  · exact .inl (elementStep_txt s _)
  · exact .inl (elementStep_txt s _)
  · have hrun : s.run = .busy .rangeLine ∨ s.run = .busy .finalText := by
      rw [hr]
      exact hp.imp (congrArg _) (congrArg _)
    exact (handOver_txt s).imp_right fun happ => ⟨hrun, happ⟩

/-- The host never emits text. -/
theorem hostTurn_done_txt {s t : State} (h : hostTurn s = .done t) : t.txt = s.txt := by
  rcases hostTurn_done_cases h with ⟨-, rfl⟩ | ⟨n, rest, -, rfl⟩ | ⟨n, d, rest, -, hw⟩
  · rfl
  · rfl
  · rcases hw with ⟨-, rfl⟩ | ⟨-, rfl | ⟨r, -, rfl⟩ | ⟨-, rfl⟩ | ⟨-, rfl⟩ |
      ⟨-, ⟨-, rfl⟩ | ⟨-, rfl⟩⟩⟩ <;> rfl

/-- Acceptance emits no text of itself. -/
theorem hostTurn_run_txt {s t u : State} {i : Instr} (hu : hostTurn s = .run i u)
    (hx : exec i u = .next t) : t.txt = s.txt := by
  obtain ⟨n, d, rest, -, -, -, -, rfl⟩ := hostTurn_run_cases hu
  obtain ⟨-, -, -, htxt, -⟩ := exec_frame hx
  exact htxt

/-- Settles O48: of the agents' moves only the core's hands bytes over. -/
theorem textGrowsByOneByte : Obligations.TextGrowsByOneByte := by
  intro s t hstep
  obtain ⟨s0, hs0, hmove⟩ := step_cases hstep
  obtain ⟨htxt, hrun, htxq⟩ : s0.txt = s.txt ∧ s0.run = s.run ∧ s0.txq = s.txq := by
    rcases hs0 with ⟨-, rfl⟩ | ⟨m, ms, -, rfl⟩ <;> exact ⟨rfl, rfl, rfl⟩
  rw [← htxt, ← hrun, ← htxq]
  rcases hmove with ⟨hm, rfl⟩ | ⟨-, ht⟩ | ⟨-, i, u, hu, hx⟩ | ⟨-, rfl⟩ | ⟨a, b, -, rfl⟩
  · exact (coreStep_txt s0).imp_right fun happ => ⟨hm, happ⟩
  · exact .inl (hostTurn_done_txt ht)
  · exact .inl (hostTurn_run_txt hu hx)
  · exact .inl rfl
  · exact .inl rfl

end Sys2Proof.Machine

/-! PROOFS. The host port: acceptance of a command (O8), reads (O11), writes in IDLE (O12) and
outside it (O13), and `STATUS` (O14). -/

namespace Sys2Proof.Machine

/-! ### The register numbers (R31) -/

theorem hostReg_regBits (r : Reg) : hostReg ((regBits r).setWidth 5) = .x r := by
  cases r <;> rfl

/-- The reserved numbers: every number R31 does not list. -/
theorem hostReg_reserved : ∀ n : BitVec 5, n = 14 ∨ n = 15 ∨ 17 ≤ n.toNat →
    hostReg n = .reserved := by
  decide

/-- The numbers from 10 on, but for `CMD`, are read-only or reserved. -/
theorem hostReg_readOnly : ∀ n : BitVec 5, 10 ≤ n.toNat → n ≠ 16 →
    hostReg n = .status ∨ hostReg n = .cause ∨ hostReg n = .finfo ∨ hostReg n = .faddr ∨
      hostReg n = .reserved := by
  decide

/-- A write to a read-only or reserved number is taken without effect. -/
theorem hostWrite_readOnly {n : BitVec 5} (h10 : 10 ≤ n.toNat) (h16 : n ≠ 16) (d : Word)
    (s : State) : hostWrite n d s = .done s := by
  rcases hostReg_readOnly n h10 h16 with h | h | h | h | h <;> simp only [hostWrite, h]

theorem hostWrite_reg (r : Reg) (d : Word) (s : State) :
    hostWrite ((regBits r).setWidth 5) d s = .done (s.setReg r d) := by
  simp only [hostWrite, hostReg_regBits]

/-- The write of a legal word to `CMD` is an acceptance (R33, R76). -/
theorem hostWrite_cmd_legal {d : Word} {i : Instr} (hd : decode (d.setWidth 32) = .legal i)
    (s : State) : hostWrite 16 d s = .run i (s.latch (d.setWidth 32)) := by
  have hn : hostReg 16 = .cmd := rfl
  simp only [hostWrite, hn, acceptCommand, hd]

theorem hostTurn_read {s : State} {n : BitVec 5} {rest : List Transfer}
    (hh : s.host = .read n :: rest) :
    hostTurn s = .done ((s.setHost rest).answer n (hostValue s n)) := by
  simp only [hostTurn, hh]

/-! ### A step in which the host moves -/

section HostMoves

variable {s : State} {n : BitVec 5} {d : Word} {rest : List Transfer}

/-- In IDLE the step does what the write does to the state with the transfer made. -/
theorem step_of_hostWrite_done {t : State} (hm : s.mover = .host) (hr : s.run = .idle)
    (hh : s.host = .write n d :: rest)
    (hw : hostWrite n d { s with sched := s.sched.tail, host := rest, held := false } = .done t) :
    step s = .next t := by
  rw [step_of_host hm, hostTurn_write (s := { s with sched := s.sched.tail }) hh hr]
  simp only [State.setHost, hw]

/-- In IDLE the step executes the command the write hands on. -/
theorem step_of_hostWrite_run {t : State} {i : Instr} (hm : s.mover = .host) (hr : s.run = .idle)
    (hh : s.host = .write n d :: rest)
    (hw : hostWrite n d { s with sched := s.sched.tail, host := rest, held := false } = .run i t) :
    step s = exec i t := by
  rw [step_of_host hm, hostTurn_write (s := { s with sched := s.sched.tail }) hh hr]
  simp only [State.setHost, hw]

/-- Outside IDLE the step holds the write off. -/
theorem step_of_hostWrite_held (hm : s.mover = .host) (hr : s.run ≠ .idle)
    (hh : s.host = .write n d :: rest) :
    step s = .next { s with sched := s.sched.tail, held := true } := by
  rw [step_of_host hm, hostTurn_hold (s := { s with sched := s.sched.tail }) hh hr]
  rfl

/-- A read is answered whatever the run state. -/
theorem step_of_hostRead (hm : s.mover = .host) (hh : s.host = .read n :: rest) :
    step s = .next
      { s with
        sched := s.sched.tail, host := rest, held := false
        rdata := s.rdata ++ [(n, hostValue s n)] } := by
  rw [step_of_host hm, hostTurn_read (s := { s with sched := s.sched.tail }) hh]
  rfl

end HostMoves

/-! ### `STATUS` (R27) -/

theorem statusWord_idle : statusWord .idle = 0 := by decide

theorem statusWord_busy (p : Phase) : statusWord (.busy p) = 1 := by cases p <;> decide

theorem statusWord_faulted : statusWord .faulted = 2 := by decide

/-- `STATUS` reads 0, 1 or 2. -/
theorem statusWord_lt (r : Run) : (statusWord r).toNat < 2 ^ 2 := by
  cases r with
  | idle => rw [statusWord_idle]; decide
  | busy p => rw [statusWord_busy]; decide
  | faulted => rw [statusWord_faulted]; decide

theorem statusWord_bit0 (r : Run) : (statusWord r).getLsbD 0 = busyBit r := by
  cases r with
  | idle => rw [statusWord_idle]; rfl
  | busy p => rw [statusWord_busy]; rfl
  | faulted => rw [statusWord_faulted]; rfl

theorem statusWord_bit1 (r : Run) : (statusWord r).getLsbD 1 = faultBit r := by
  cases r with
  | idle => rw [statusWord_idle]; rfl
  | busy p => rw [statusWord_busy]; rfl
  | faulted => rw [statusWord_faulted]; rfl

theorem statusWord_high (r : Run) {k : Nat} (hk : 2 ≤ k) : (statusWord r).getLsbD k = false :=
  Nat.testBit_lt_two_pow ((statusWord_lt r).trans_le (Nat.pow_le_pow_right two_pos hk))

theorem busyBit_iff (r : Run) : busyBit r = true ↔ ∃ p, r = .busy p := by
  cases r <;> simp [busyBit]

theorem faultBit_iff (r : Run) : faultBit r = true ↔ r = .faulted := by
  cases r <;> simp [faultBit]

/-! ### The statements -/

/-- Settles O8: the write of a legal word hands its instruction on. -/
theorem stepRunsTheDecodedCommand : Obligations.StepRunsTheDecodedCommand :=
  fun _ _ _ _ hm hr hh hd => step_of_hostWrite_run hm hr hh (hostWrite_cmd_legal hd _)

/-- Settles O11, by the table of R31 and the three values of `STATUS`. -/
theorem hostReadReturnsTheRegister : Obligations.HostReadReturnsTheRegister := by
  refine ⟨fun s n rest hm hh => step_of_hostRead hm hh, fun s r => ?_,
    fun s => ⟨rfl, rfl, rfl, rfl, rfl, rfl⟩, fun s => ⟨fun hr => ?_, fun p hr => ?_, fun hr => ?_⟩,
    fun s n hn => ?_⟩
  · simp only [hostValue, hostReg_regBits, State.getReg]
  · exact (congrArg statusWord hr).trans statusWord_idle
  · exact (congrArg statusWord hr).trans (statusWord_busy p)
  · exact (congrArg statusWord hr).trans statusWord_faulted
  · simp only [hostValue, hostReg_reserved n hn]

/-- Settles O12, by the table of R31. -/
theorem hostWriteTakesEffectInIdle : Obligations.HostWriteTakesEffectInIdle := by
  intro s n d rest hm hr hh
  refine ⟨fun r hn => ?_, fun hn => ?_, fun hn => ?_, fun h10 h16 => ?_⟩
  · subst hn
    exact step_of_hostWrite_done hm hr hh (hostWrite_reg r d _)
  · subst hn
    exact step_of_hostWrite_done hm hr hh rfl
  · subst hn
    exact step_of_hostWrite_done hm hr hh rfl
  · exact step_of_hostWrite_done hm hr hh (hostWrite_readOnly h10 h16 d _)

/-- Settles O13: the port takes a write in IDLE only. -/
theorem hostWriteIsHeldOffOutsideIdle : Obligations.HostWriteIsHeldOffOutsideIdle :=
  fun _ _ _ _ hm hr hh => step_of_hostWrite_held hm hr hh

/-- Settles O14, bit by bit; `STATUS` is one of the read-only numbers. -/
theorem statusReflectsTheRunState : Obligations.StatusReflectsTheRunState := by
  refine ⟨fun r => ?_, fun s d rest hm hh => ⟨fun hr => ?_, fun hr => ?_⟩⟩
  · rw [statusWord_bit0, statusWord_bit1, busyBit_iff, faultBit_iff]
    refine ⟨Iff.rfl, Iff.rfl, ?_, fun k hk => statusWord_high r hk⟩
    rintro ⟨⟨p, rfl⟩, hf⟩
    cases hf
  · exact step_of_hostWrite_done hm hr hh (hostWrite_readOnly (by decide) (by decide) d _)
  · exact step_of_hostWrite_held hm hr hh

end Sys2Proof.Machine

/-! PROOFS. The widths of the text fields, from the size of the numbers they print: an element line
of a value of any width is 89 bytes (43_debug_render.md R121 to R126). -/

namespace Sys2Proof.Machine

/-! ### Numbers and padding -/

theorem decDigits_length_le (fuel : Nat) {u k : Nat} (hk : 0 < k) (hu : u < 10 ^ k) :
    (decDigits fuel u).length ≤ k := by
  induction fuel generalizing u k with
  | zero => exact Nat.zero_le _
  | succ fuel ih =>
    rw [decDigits]
    split_ifs with h10
    · exact hk
    · obtain ⟨j, rfl⟩ : ∃ j, k = j + 2 := ⟨k - 2, by
        have : k ≠ 1 := by rintro rfl; omega
        omega⟩
      have hdiv : u / 10 < 10 ^ (j + 1) := Nat.div_lt_of_lt_mul (by rw [← pow_succ']; exact hu)
      simpa using ih j.succ_pos hdiv

/-- A number below `10^k` has at most `k` digits. -/
theorem decU_length_le {u k : Nat} (hk : 0 < k) (hu : u < 10 ^ k) : (decU u).length ≤ k := by
  rw [decU, List.length_map]
  exact decDigits_length_le _ hk hu

@[simp] theorem fixedDigits_length (k u : Nat) : (fixedDigits k u).length = k := by
  induction k generalizing u with
  | zero => rfl
  | succ k ih => simp [fixedDigits, ih]

theorem padLeft_length {l : List Byte} {c : Nat} (h : l.length ≤ c) : (padLeft l c).length = c := by
  rw [padLeft, List.length_append, List.length_replicate]
  omega

theorem padRight_length {l : List Byte} {c : Nat} (h : l.length ≤ c) :
    (padRight l c).length = c := by
  rw [padRight, List.length_append, List.length_replicate]
  omega

/-! ### The name, the tag and the index -/

@[simp] theorem wordBytes_length (v : Word) : (wordBytes v).length = 8 := by simp [wordBytes]

theorem nameField_length (name0 name1 : Word) : (nameField name0 name1).length = 16 := by
  refine padRight_length ?_
  calc (nameString name0 name1).length
      ≤ (wordBytes name0 ++ wordBytes name1).length := (List.takeWhile_sublist _).length_le
    _ = 16 := by simp

theorem tagField_length {n : Nat} (h : n < 64) : (tagField n).length = 3 :=
  padRight_length (Nat.succ_le_succ (decU_length_le two_pos (by omega)))

theorem indexField_length (i : Word) : (indexField i).length = 20 :=
  padLeft_length (decU_length_le (by decide) (i.isLt.trans (by decide)))

/-! ### `RNE24` and the exponent of `to_float` (R111, R113) -/

theorem lt_two_pow_bitLength (a : Nat) : a < 2 ^ bitLength a := by
  rw [bitLength]
  split_ifs with h
  · simp [h]
  · exact Nat.lt_log2_self

theorem bitLength_le {a k : Nat} (h : a < 2 ^ k) : bitLength a ≤ k := by
  rw [bitLength]
  split_ifs with h0
  · exact Nat.zero_le k
  · exact (Nat.log2_lt h0).2 h

/-- Rounding does not pass a power of two. -/
theorem rneMag_le_of_lt {a k : Nat} (h : a < 2 ^ k) : rneMag a ≤ 2 ^ k := by
  rw [rneMag]
  split_ifs with h24
  · exact h.le
  · have hk := bitLength_le h
    have hq : a / 2 ^ (bitLength a - 24) < 2 ^ 24 := by
      refine Nat.div_lt_of_lt_mul ?_
      rw [← pow_add, Nat.sub_add_cancel (by omega)]
      exact lt_two_pow_bitLength a
    have hup : (a / 2 ^ (bitLength a - 24) + 1) * 2 ^ (bitLength a - 24) ≤ 2 ^ k :=
      calc _ ≤ 2 ^ 24 * 2 ^ (bitLength a - 24) := Nat.mul_le_mul_right _ hq
        _ = 2 ^ bitLength a := by rw [← pow_add, Nat.add_sub_cancel' (by omega)]
        _ ≤ 2 ^ k := Nat.pow_le_pow_right two_pos hk
    dsimp only
    split_ifs
    · exact hup
    · exact (Nat.mul_le_mul_right _ (Nat.le_succ _)).trans hup

/-- No value of a width rounds beyond `2^63`. -/
theorem rneMag_le {a : Nat} (h : a ≤ 2 ^ 63) : rneMag a ≤ 2 ^ 63 := by
  rcases h.lt_or_eq with hlt | rfl
  · exact rneMag_le_of_lt hlt
  · decide +kernel

theorem natAbs_rne24_le {v : Int} (h : v.natAbs ≤ 2 ^ 63) : (rne24 v).natAbs ≤ 2 ^ 63 := by
  rw [rne24]
  split_ifs
  · rw [Int.natAbs_neg, Int.natAbs_natCast]
    exact rneMag_le h
  · exact rneMag_le h

theorem significand_lt (a : Nat) : significand a < 2 ^ 24 := by
  have ha := lt_two_pow_bitLength a
  rw [significand]
  split_ifs with h24
  · calc a * 2 ^ (24 - bitLength a)
        < 2 ^ bitLength a * 2 ^ (24 - bitLength a) := Nat.mul_lt_mul_of_pos_right ha (by positivity)
      _ = 2 ^ 24 := by rw [← pow_add, Nat.add_sub_cancel' h24]
  · refine Nat.div_lt_of_lt_mul ?_
    rwa [← pow_add, Nat.sub_add_cancel (by omega)]

/-- Exponent field and fraction of an encoded magnitude, as one number, are at most those of
`2^63`. -/
theorem encoded_magnitude_le {a : Nat} (h : a ≤ 2 ^ 63) (n : Nat) :
    (bitLength a + 126 - n) * 2 ^ 23 + (significand a - 2 ^ 23) ≤ 190 * 2 ^ 23 := by
  rcases h.lt_or_eq with hlt | rfl
  · have hL := bitLength_le hlt
    have hs := significand_lt a
    omega
  · have hL : bitLength (2 ^ 63) = 64 := by decide +kernel
    have hs : significand (2 ^ 63) = 2 ^ 23 := by decide +kernel
    rw [hL, hs]
    omega

/-- The 31 magnitude bits of a rendered value are at most those of `2^63`. -/
theorem toFloatBits_magnitude_le (f : QFormat) {v : Int} (h : v.natAbs ≤ 2 ^ 63) :
    (toFloatBits f v).toNat % 2 ^ 31 ≤ 190 * 2 ^ 23 := by
  rw [toFloatBits, encodeScaled]
  by_cases h0 : rne24 v = 0
  · rw [if_pos h0]
    decide
  · have hm := encoded_magnitude_le (natAbs_rne24_le h) f.frac
    rw [if_neg h0]
    dsimp only
    rw [BitVec.toNat_ofNat]
    split_ifs <;> omega

/-! ### The value (R8, R124, R125) -/

theorem f32Mag_le {e m : Nat} (hm : m < 2 ^ 23) (h : e * 2 ^ 23 + m ≤ 190 * 2 ^ 23) :
    f32Mag e m ≤ 2 ^ 212 := by
  rw [f32Mag]
  split_ifs with h0
  · omega
  · rcases Nat.lt_or_ge e 190 with he | he
    · calc (2 ^ 23 + m) * 2 ^ (e - 1)
          ≤ 2 ^ 24 * 2 ^ 188 :=
            Nat.mul_le_mul (by omega) (Nat.pow_le_pow_right two_pos (by omega))
        _ = 2 ^ 212 := by norm_num
    · obtain ⟨rfl, rfl⟩ : e = 190 ∧ m = 0 := by omega
      norm_num

/-- Such a datum is finite and at most `2^63`, in units of `2^(−149)`. -/
theorem f32Value_of_magnitude_le {b : BitVec 32} (h : b.toNat % 2 ^ 31 ≤ 190 * 2 ^ 23) :
    ∃ v, f32Value b = .fin v ∧ v.natAbs ≤ 2 ^ 212 := by
  have he : f32Exp b = b.toNat / 2 ^ 23 % 2 ^ 8 := extract_toNat b 23 8
  have hf : f32Frac b = b.toNat / 2 ^ 0 % 2 ^ 23 := extract_toNat b 0 23
  have hmag : f32Mag (f32Exp b) (f32Frac b) ≤ 2 ^ 212 := f32Mag_le (by omega) (by omega)
  rw [f32Value, if_neg (by omega)]
  refine ⟨_, rfl, ?_⟩
  split_ifs
  · rwa [Int.natAbs_neg, Int.natAbs_natCast]
  · exact hmag

/-- A magnitude of at most `2^63` has at most 19 integer digits. -/
theorem dec21_length_le {v : Int} (h : v.natAbs ≤ 2 ^ 212) : (dec21 v).length ≤ 42 := by
  have hq : divNearestEven (v.natAbs * 10 ^ 21) (2 ^ 149) ≤ 2 ^ 63 * 10 ^ 21 + 1 := by
    have hdiv : v.natAbs * 10 ^ 21 / 2 ^ 149 ≤ 2 ^ 63 * 10 ^ 21 :=
      Nat.div_le_of_le_mul (by omega)
    rw [divNearestEven]
    split_ifs <;> omega
  have hip : (decU (divNearestEven (v.natAbs * 10 ^ 21) (2 ^ 149) / 10 ^ 21)).length ≤ 19 :=
    decU_length_le (by decide) (by omega)
  have hsign : (if v < 0 then [chMinus] else []).length ≤ 1 := by split_ifs <;> simp
  simp only [dec21, Config.fracDigits, List.length_append, List.length_map, fixedDigits_length,
    List.length_singleton]
  omega

theorem dec21Bits_toFloatBits_length_le (f : QFormat) {v : Int} (h : v.natAbs ≤ 2 ^ 63) :
    (dec21Bits (toFloatBits f v)).length ≤ 42 := by
  obtain ⟨u, hu, hle⟩ := f32Value_of_magnitude_le (toFloatBits_magnitude_le f h)
  simp only [dec21Bits, hu]
  exact dec21_length_le hle

/-! ### The element line (R126) -/

theorem elementLine_length (f : QFormat) (name0 name1 i : Word) {v : Int}
    (h : v.natAbs ≤ 2 ^ 63) : (elementLine f name0 name1 i v).length = 89 := by
  have hvalue : (valueField (toFloatBits f v)).length = 42 :=
    padLeft_length (dec21Bits_toFloatBits_length_le f h)
  simp [elementLine, nameField_length, tagField_length f.n.isLt, indexField_length, hvalue,
    QFormat.frac]

theorem natAbs_sintOf_le (w : Width) (u : Nat) : (sintOf w u).natAbs ≤ 2 ^ 63 := by
  have hlo := BitVec.le_toInt (BitVec.ofNat w.bits u)
  have hhi := BitVec.toInt_lt (x := BitVec.ofNat w.bits u)
  rw [sintOf]
  cases w <;> simp only [Width.bits] at hlo hhi ⊢ <;> omega

/-- An element read from memory is a value of its width (R53). -/
theorem natAbs_elementAt_le {mem : List Host.Cell} {w : Width} {base idx : Word} {v : Int}
    (h : elementAt mem w base idx = .ok v) : v.natAbs ≤ 2 ^ 63 := by
  unfold elementAt at h
  split_ifs at h
  split at h
  · cases h
  · rw [← Except.ok.inj h]
    exact natAbs_sintOf_le w _

end Sys2Proof.Machine

/-! PROOFS. The acceptance of `RRNG` (O31) and the whole run of `RELT` (O30), with the run of a text
port for any emission. -/

namespace Sys2Proof

/-! ### The encoder and the decoder -/

/-- Step 1 of R76 finds the row an instruction was encoded from. -/
theorem decodeRow_encode (i : Instr) : decodeRow (encode i) = some i := by
  cases i <;>
    simp [decodeRow, encode, opOf_encodeFields, zOf_encodeFields, rs3Of_encodeFields,
      rs2Of_encodeFields, rs1Of_encodeFields, rdOf_encodeFields, formatOf_encodeFields,
      regOfBits_regBits]

theorem decode_encode_of_wf {i : Instr} (h : i.wf = true) : decode (encode i) = .legal i := by
  simp only [decode, decodeRow_encode, h, if_true]

end Sys2Proof

namespace Sys2Proof.Machine

/-! ### Acceptance -/

theorem exec_rrng_of_le {f : QFormat} {rs1 rs2 rs3 : Reg} {s : State}
    (h : (s.getReg rs2).toNat ≤ (s.getReg rs3).toNat) : exec (.rrng f rs1 rs2 rs3) s =
      .next (s.loadRange f (s.getReg rs1) (s.getReg rs2) (s.getReg rs3)) :=
  if_neg (not_lt.2 h)

theorem exec_rrng_of_lt {f : QFormat} {rs1 rs2 rs3 : Reg} {s : State}
    (h : (s.getReg rs3).toNat < (s.getReg rs2).toNat) :
    exec (.rrng f rs1 rs2 rs3) s = .next (s.raise .rangeOrder 0) :=
  if_pos h

/-- Settles O31, by the order of the two bounds. -/
theorem rrngAcceptsOrRefusesItsRange : Obligations.RrngAcceptsOrRefusesItsRange :=
  fun f rs1 rs2 rs3 _ => ⟨Laws.EncodeRow.rrng f rs1 rs2 rs3, exec_rrng_of_le, exec_rrng_of_lt⟩

/-! ### Runs of the core -/

/-- A run goes on from where its first step leads. -/
theorem runSteps_succ {s t : State} (k : Nat) (h : step s = .next t) :
    runSteps (k + 1) s = runSteps k t := by
  have hs : Sys2Proof.core.step s = .next t := h
  simp only [runSteps, Host.Core.run, hs]
  rfl

/-- With nothing scheduled, the core hands over a whole text in as many steps as it has bytes, and
then does what follows the text (R36). -/
theorem runSteps_handOver {s : State} {p : Phase} (hs : s.sched = []) (hr : s.run = .busy p)
    (hp : p = .rangeLine ∨ p = .finalText) {l : List Byte} (hl : l ≠ []) (hq : s.txq = l) :
    runSteps l.length s = .next (textDone { s with txt := s.txt ++ l, txq := [] }) := by
  induction l generalizing s with
  | nil => exact absurd rfl hl
  | cons b l ih =>
    have hstep := (step_of_busy hs hr).trans (congrArg _ (coreStep_handOver hr hp))
    rw [List.length_cons]
    cases l with
    | nil =>
      rw [handOver_last hq] at hstep
      rw [runSteps_succ _ hstep]
      rfl
    | cons c l =>
      rw [handOver_more hq] at hstep
      rw [runSteps_succ _ hstep, ih (s := s.handByte b (c :: l)) hs hr (List.cons_ne_nil c l) rfl]
      simp [State.handByte]

/-- The last text of a command runs to its completion. -/
theorem runSteps_finalText {s : State} (hs : s.sched = []) (hr : s.run = .busy .finalText)
    (hq : s.txq ≠ []) : runSteps s.txq.length s =
      .next { s with txt := s.txt ++ s.txq, txq := [], run := .idle } := by
  rw [runSteps_handOver hs hr (.inr rfl) hq rfl,
    textDone_final (s := { s with txt := s.txt ++ s.txq, txq := [] }) hr]
  rfl

/-- An element step that can read its element, and the text that follows: one request, then the 89
bytes of the line, then IDLE (R129). -/
theorem runSteps_elementOne {s : State} {v : Int} (hs : s.sched = [])
    (hr : s.run = .busy .elementOne) (hv : elementAt s.mem s.fmt.w s.base s.idx = .ok v) :
    runSteps 90 s = .next
      { s with
        txt := s.txt ++ elementLine s.fmt s.name0 s.name1 s.idx v
        txq := []
        run := .idle
        reads := s.reads ++ [⟨elementAddr s.base s.idx s.fmt.w, s.fmt.w.bytes⟩] } := by
  have hstep := (step_of_busy hs hr).trans
    (congrArg _ ((coreStep_elementOne hr).trans (elementStep_ok .finalText hv)))
  have hlen := elementLine_length s.fmt s.name0 s.name1 s.idx (natAbs_elementAt_le hv)
  have hrun := runSteps_finalText
    (s := (s.logRead (elementAddr s.base s.idx s.fmt.w) s.fmt.w.bytes).startText
      (elementLine s.fmt s.name0 s.name1 s.idx v) .finalText)
    hs rfl (elementLine_ne_nil _ _ _ _ _)
  rw [State.startText_txq, hlen] at hrun
  rw [runSteps_succ 89 hstep, hrun]
  rfl

/-- Settles O30: the acceptance, and the run from the latched operands. -/
theorem reltEmitsItsLine : Obligations.ReltEmitsItsLine := by
  intro f rs1 rs2 s hf hs
  refine ⟨s.loadElement f (s.getReg rs1) (s.getReg rs2), rfl, rfl, Laws.EncodeRow.relt f rs1 rs2,
    decode_encode_of_wf hf, fun v hv => ?_⟩
  exact runSteps_elementOne (s := s.loadElement f (s.getReg rs1) (s.getReg rs2)) hs rfl hv

end Sys2Proof.Machine

/-! PROOFS. The data memory: little-endian reads (O49), aligned arrays (O50), the access faults of an
element step (O34), and which steps touch memory or its port (O46, O47). -/

namespace Sys2Proof.Machine

/-! ### Little-endian reads (R52, R56) -/

theorem memRead_succ_of_some {m : List Host.Cell} {addr n r : Nat} {b : Byte}
    (hb : memByte m addr = some b) (hr : memRead m (addr + 1) n = some r) :
    memRead m addr (n + 1) = some (b.toNat + 256 * r) := by
  simp only [memRead, hb, hr]

theorem memRead_succ_of_unmapped {m : List Host.Cell} {addr : Nat} (n : Nat)
    (hb : memByte m addr = none) : memRead m addr (n + 1) = none := by
  simp only [memRead, hb]

theorem memRead_succ_of_none {m : List Host.Cell} {addr n : Nat}
    (hr : memRead m (addr + 1) n = none) : memRead m addr (n + 1) = none := by
  cases hb : memByte m addr <;> simp only [memRead, hb, hr]

/-- The lowest byte is the least significant, and the bytes above it weigh 256 times as much. -/
theorem memRead_of_mapped {m : List Host.Cell} {addr n : Nat} {byte : Nat → Byte}
    (h : ∀ k, k < n → memByte m (addr + k) = some (byte k)) :
    memRead m addr n = some (∑ k ∈ Finset.range n, (byte k).toNat * 2 ^ (8 * k)) := by
  induction n generalizing addr byte with
  | zero => rfl
  | succ n ih =>
    have htail := ih (addr := addr + 1) (byte := fun k => byte (k + 1)) fun k hk => by
      rw [Nat.add_right_comm]
      exact h (k + 1) (Nat.succ_lt_succ hk)
    have hshift : ∑ k ∈ Finset.range n, (byte (k + 1)).toNat * 2 ^ (8 * (k + 1)) =
        256 * ∑ k ∈ Finset.range n, (byte (k + 1)).toNat * 2 ^ (8 * k) := by
      rw [Finset.mul_sum]
      exact Finset.sum_congr rfl fun k _ => by ring
    have hhead : memByte m addr = some (byte 0) := h 0 n.succ_pos
    rw [memRead_succ_of_some hhead htail, Finset.sum_range_succ', hshift, Nat.mul_zero,
      pow_zero, Nat.mul_one, Nat.add_comm]

/-- One unmapped byte fails the whole read. -/
theorem memRead_of_unmapped {m : List Host.Cell} {addr n k : Nat} (hk : k < n)
    (h : memByte m (addr + k) = none) : memRead m addr n = none := by
  induction n generalizing addr k with
  | zero => exact absurd hk k.not_lt_zero
  | succ n ih =>
    cases k with
    | zero => exact memRead_succ_of_unmapped n h
    | succ k =>
      refine memRead_succ_of_none (ih (Nat.lt_of_succ_lt_succ hk) ?_)
      rwa [Nat.add_right_comm]

/-- Settles O49: both readings go by induction on the number of bytes. -/
theorem memReadIsLittleEndian : Obligations.MemReadIsLittleEndian :=
  fun _ _ _ => ⟨fun _ h => memRead_of_mapped h, fun ⟨_, hk, h⟩ => memRead_of_unmapped hk h⟩

/-! ### Element addresses (R53, R54) -/

/-- An element lies a whole number of element sizes above the base. -/
theorem elementAddr_mod_bytes (base idx : Word) (w : Width) :
    elementAddr base idx w % w.bytes = base.toNat % w.bytes :=
  Nat.add_mul_mod_self_right _ _ _

/-- Settles O50: the address and the base leave the same remainder. -/
theorem alignmentDependsOnBaseOnly : Obligations.AlignmentDependsOnBaseOnly :=
  fun base idx w => ⟨rfl, iff_of_eq (congrArg (· = 0) (elementAddr_mod_bytes base idx w)),
    Nat.mod_one _⟩

/-! ### The element step, check by check (R145, R146, R148) -/

theorem elementStep_misaligned {s : State} (p : Phase)
    (h : elementAddr s.base s.idx s.fmt.w % s.fmt.w.bytes ≠ 0) : elementStep s p =
      s.raise .accessMisaligned (BitVec.ofNat 64 (elementAddr s.base s.idx s.fmt.w)) := by
  rw [elementStep]
  exact if_pos h

section Aligned

variable {s : State} (hal : elementAddr s.base s.idx s.fmt.w % s.fmt.w.bytes = 0)
include hal

theorem elementStep_beyond (p : Phase)
    (h : 2 ^ 64 < elementAddr s.base s.idx s.fmt.w + s.fmt.w.bytes) : elementStep s p =
      s.raise .accessFault (BitVec.ofNat 64 (elementAddr s.base s.idx s.fmt.w)) := by
  simp only [elementStep, hal, ne_eq, not_true_eq_false, if_false, h, if_true]

variable (hin : elementAddr s.base s.idx s.fmt.w + s.fmt.w.bytes ≤ 2 ^ 64)
include hin

theorem elementStep_unmapped (p : Phase)
    (h : memRead s.mem (elementAddr s.base s.idx s.fmt.w) s.fmt.w.bytes = none) :
    elementStep s p =
      (s.logRead (elementAddr s.base s.idx s.fmt.w) s.fmt.w.bytes).raise .accessFault
        (BitVec.ofNat 64 (elementAddr s.base s.idx s.fmt.w)) := by
  simp only [elementStep, hal, ne_eq, not_true_eq_false, if_false, not_lt.2 hin, h]

/-- An aligned element in range is requested once, whether or not the read succeeds. -/
theorem elementStep_reads_of_aligned (p : Phase) : (elementStep s p).reads =
    s.reads ++ [⟨elementAddr s.base s.idx s.fmt.w, s.fmt.w.bytes⟩] := by
  simp only [elementStep, hal, ne_eq, not_true_eq_false, if_false, not_lt.2 hin]
  cases memRead s.mem (elementAddr s.base s.idx s.fmt.w) s.fmt.w.bytes <;> rfl

end Aligned

/-- With nothing scheduled, the step of a command at its element is an element step. -/
theorem step_of_element {s : State} (hs : s.sched = [])
    (hr : s.run = .busy .elementOne ∨ s.run = .busy .elementRange) :
    ∃ p, step s = .next (elementStep s p) := by
  rcases hr with hr | hr
  · exact ⟨_, (step_of_busy hs hr).trans (congrArg _ (coreStep_elementOne hr))⟩
  · exact ⟨_, (step_of_busy hs hr).trans (congrArg _ (coreStep_elementRange hr))⟩

/-- Settles O34: one clause for each check of the element step. -/
theorem accessFaultsAreTaken : Obligations.AccessFaultsAreTaken := by
  rintro s _ _ hs hr rfl rfl
  obtain ⟨p, hstep⟩ := step_of_element hs hr
  rw [hstep]
  refine ⟨fun hmis => ?_, fun hal hout => ?_, fun hal hin ⟨k, hk, hnone⟩ => ?_⟩
  · exact congrArg _ (elementStep_misaligned p hmis)
  · exact congrArg _ (elementStep_beyond hal p hout)
  · exact congrArg _ (elementStep_unmapped hal hin p (memRead_of_unmapped hk hnone))

/-! ### Which steps touch memory and its port (R50, R57, R61) -/

/-- Memory, and the requests made on its port, are as they were. -/
structure State.SameMemory (s t : State) : Prop where
  mem : t.mem = s.mem
  reads : t.reads = s.reads

theorem textDone_sameMemory (s : State) : s.SameMemory (textDone s) := by
  rcases textDone_cases s with h | h | h | h <;> rw [h] <;> exact ⟨rfl, rfl⟩

theorem handOver_sameMemory (s : State) : s.SameMemory (handOver s) := by
  match hl : s.txq with
  | [] =>
    simp only [handOver, hl]
    exact textDone_sameMemory s
  | [b] =>
    rw [handOver_last hl]
    obtain ⟨hmem, hreads⟩ := textDone_sameMemory (s.handByte b [])
    exact ⟨hmem, hreads⟩
  | b :: c :: l =>
    rw [handOver_more hl]
    exact ⟨rfl, rfl⟩

theorem hostTurn_done_sameMemory {s t : State} (h : hostTurn s = .done t) : s.SameMemory t := by
  rcases hostTurn_done_cases h with ⟨-, rfl⟩ | ⟨n, rest, -, rfl⟩ | ⟨n, d, rest, -, hw⟩
  · exact ⟨rfl, rfl⟩
  · exact ⟨rfl, rfl⟩
  · rcases hw with ⟨-, rfl⟩ | ⟨-, rfl | ⟨r, -, rfl⟩ | ⟨-, rfl⟩ | ⟨-, rfl⟩ |
      ⟨-, ⟨-, rfl⟩ | ⟨-, rfl⟩⟩⟩ <;> exact ⟨rfl, rfl⟩

/-- Acceptance neither reads nor writes memory. -/
theorem hostTurn_run_sameMemory {s t u : State} {i : Instr} (hu : hostTurn s = .run i u)
    (hx : exec i u = .next t) : s.SameMemory t := by
  obtain ⟨n, d, rest, -, -, -, -, rfl⟩ := hostTurn_run_cases hu
  obtain ⟨-, -, hmem, -, hreads⟩ := exec_frame hx
  exact ⟨hmem, hreads⟩

theorem elementStep_mem (s : State) (p : Phase) : (elementStep s p).mem = s.mem := by
  rcases elementStep_cases s p with ⟨v, -, h⟩ | ⟨c, -, h | h⟩ <;> rw [h] <;> rfl

/-- The element of `s` is requested, once, and no byte is emitted (R57, R60). -/
structure State.RequestsElement (s t : State) : Prop where
  reads : t.reads = s.reads ++ [⟨elementAddr s.base s.idx s.fmt.w, s.fmt.w.bytes⟩]
  aligned : elementAddr s.base s.idx s.fmt.w % s.fmt.w.bytes = 0
  inRange : elementAddr s.base s.idx s.fmt.w + s.fmt.w.bytes ≤ 2 ^ 64
  txt : t.txt = s.txt

/-- An element step makes its request after the two checks that need no read (R148). -/
theorem elementStep_reads (s : State) (p : Phase) :
    (elementStep s p).reads = s.reads ∨ s.RequestsElement (elementStep s p) := by
  by_cases hal : elementAddr s.base s.idx s.fmt.w % s.fmt.w.bytes = 0
  · rcases Nat.lt_or_ge (2 ^ 64) (elementAddr s.base s.idx s.fmt.w + s.fmt.w.bytes) with hout | hin
    · rw [elementStep_beyond hal p hout]
      exact .inl rfl
    · exact .inr ⟨elementStep_reads_of_aligned hal hin p, hal, hin, elementStep_txt s p⟩
  · rw [elementStep_misaligned p hal]
    exact .inl rfl

theorem coreStep_mem (s : State) : (coreStep s).mem = s.mem := by
  rcases coreStep_cases s with h | ⟨-, h⟩ | ⟨-, h⟩ | ⟨p, -, -, h⟩ <;> rw [h]
  · exact elementStep_mem s _
  · exact elementStep_mem s _
  · exact (handOver_sameMemory s).mem

/-- The core requests memory in an element step only (R57). -/
theorem coreStep_reads (s : State) : (coreStep s).reads = s.reads ∨
    ((s.run = .busy .elementOne ∨ s.run = .busy .elementRange) ∧
      s.RequestsElement (coreStep s)) := by
  rcases coreStep_cases s with h | ⟨hr, h⟩ | ⟨hr, h⟩ | ⟨p, -, -, h⟩ <;> rw [h]
  · exact .inl rfl
  · exact (elementStep_reads s _).imp_right fun hreq => ⟨.inl hr, hreq⟩
  · exact (elementStep_reads s _).imp_right fun hreq => ⟨.inr hr, hreq⟩
  · exact .inl (handOver_sameMemory s).reads

/-- A step changes memory only by the move of another agent (R50, R61). -/
theorem step_mem_cases {s t : State} (hstep : step s = .next t) :
    ((∀ a b, s.mover ≠ .poke a b) ∧ t.mem = s.mem) ∨
    ∃ a b, s.mover = .poke a b ∧ t.mem = memPoke s.mem a b := by
  obtain ⟨s0, hs0, hmove⟩ := step_cases hstep
  have hmem : s0.mem = s.mem := by
    rcases hs0 with ⟨-, rfl⟩ | ⟨m, ms, -, rfl⟩ <;> rfl
  rw [← hmem]
  rcases hmove with ⟨hm, rfl⟩ | ⟨hm, ht⟩ | ⟨hm, i, u, hu, hx⟩ | ⟨hm, rfl⟩ | ⟨a, b, hm, rfl⟩
  · exact .inl ⟨by simp [hm], coreStep_mem s0⟩
  · exact .inl ⟨by simp [hm], (hostTurn_done_sameMemory ht).mem⟩
  · exact .inl ⟨by simp [hm], (hostTurn_run_sameMemory hu hx).mem⟩
  · exact .inl ⟨by simp [hm], rfl⟩
  · exact .inr ⟨a, b, hm, rfl⟩

/-- Settles O46, by whose move the step takes. -/
theorem onlyOtherAgentsChangeMemory : Obligations.OnlyOtherAgentsChangeMemory := by
  intro s t hstep
  rcases step_mem_cases hstep with ⟨hno, hmem⟩ | ⟨a, b, hm, hmem⟩
  · exact ⟨fun _ => hmem, fun a b hm => absurd hm (hno a b)⟩
  · refine ⟨fun hno => absurd hm (hno a b), fun a' b' hm' k => ?_⟩
    obtain ⟨rfl, rfl⟩ := Move.poke.inj (hm.symm.trans hm')
    rw [hmem, memByte_memPoke]

/-- Settles O47: of the agents' moves only the core's requests memory. -/
theorem onlyElementStepsReadMemory : Obligations.OnlyElementStepsReadMemory := by
  intro s t hstep
  obtain ⟨s0, hs0, hmove⟩ := step_cases hstep
  obtain ⟨hreads, hrun, hreq⟩ : s0.reads = s.reads ∧ s0.run = s.run ∧
      (s0.RequestsElement t → s.RequestsElement t) := by
    rcases hs0 with ⟨-, rfl⟩ | ⟨m, ms, -, rfl⟩
    · exact ⟨rfl, rfl, id⟩
    · exact ⟨rfl, rfl, fun ⟨hr, hal, hin, ht⟩ => ⟨hr, hal, hin, ht⟩⟩
  rcases hmove with ⟨hm, rfl⟩ | ⟨-, ht⟩ | ⟨-, i, u, hu, hx⟩ | ⟨-, rfl⟩ | ⟨a, b, -, rfl⟩
  · rcases coreStep_reads s0 with hsame | ⟨hr, helem⟩
    · exact .inl (hsame.trans hreads)
    · obtain ⟨hr', hal, hin, ht⟩ := hreq helem
      exact .inr ⟨hm, hrun ▸ hr, hr', hal, hin, ht⟩
  · exact .inl ((hostTurn_done_sameMemory ht).reads.trans hreads)
  · exact .inl ((hostTurn_run_sameMemory hu hx).reads.trans hreads)
  · exact .inl hreads
  · exact .inl hreads

end Sys2Proof.Machine

/-! PROOFS. The whole run of `RRNG` over a range that can be read (O32): the run of one line, and the
induction over the range. -/

namespace Sys2Proof.Machine

/-! ### The text and the reads of a range -/

theorem rangeReads_succ (w : Width) (base : Word) (k : Nat) (idx : Word) :
    rangeReads w base (k + 1) idx =
      ⟨elementAddr base idx w, w.bytes⟩ :: rangeReads w base k (idx + 1) := rfl

/-- The text of a range is the line of its first element, then the text of the others. -/
theorem rangeText_succ_eq_some {s : State} {f : QFormat} {base idx : Word} {k : Nat}
    {text : List Byte} (h : rangeText s f base (k + 1) idx = some text) :
    ∃ v rest, elementAt s.mem f.w base idx = .ok v ∧ rangeText s f base k (idx + 1) = some rest ∧
      text = elementLine f s.name0 s.name1 idx v ++ rest := by
  rw [rangeText] at h
  split at h
  next v rest hv hrest => exact ⟨v, rest, hv, hrest, (Option.some.inj h).symm⟩
  next => cases h

/-- The text of a range depends on memory and on the name only. -/
theorem rangeText_eq_some_of_same {s t : State} {f : QFormat} {base idx : Word} {k : Nat}
    {text : List Byte} (h : rangeText s f base k idx = some text) (hm : t.mem = s.mem)
    (h0 : t.name0 = s.name0) (h1 : t.name1 = s.name1) :
    rangeText t f base k idx = some text := by
  induction k generalizing idx text with
  | zero => exact h
  | succ k ih =>
    obtain ⟨v, rest, hv, hrest, rfl⟩ := rangeText_succ_eq_some h
    simp only [rangeText, hm, h0, h1, hv, ih hrest]

theorem rangeText_length {s : State} {f : QFormat} {base idx : Word} {k : Nat} {text : List Byte}
    (h : rangeText s f base k idx = some text) : text.length = 89 * k := by
  induction k generalizing idx text with
  | zero =>
    obtain rfl := Option.some.inj h
    rfl
  | succ k ih =>
    obtain ⟨v, rest, hv, hrest, rfl⟩ := rangeText_succ_eq_some h
    rw [List.length_append, elementLine_length _ _ _ _ (natAbs_elementAt_le hv), ih hrest]
    omega

/-! ### One line of a range -/

/-- Two runs, one after the other. -/
theorem runSteps_add {s t : State} {j : Nat} (k : Nat) (h : runSteps j s = .next t) :
    runSteps (j + k) s = runSteps k t := by
  induction j generalizing s with
  | zero =>
    obtain rfl := Host.Outcome.next.inj h
    rw [Nat.zero_add]
  | succ j ih =>
    cases hstep : step s with
    | next u =>
      rw [Nat.add_right_comm, runSteps_succ _ hstep]
      exact ih ((runSteps_succ j hstep).symm.trans h)
    | fault r => cases r
    | refused r =>
      have hcore : Sys2Proof.core.step s = .refused r := hstep
      simp only [runSteps, Host.Core.run, hcore] at h
      cases h

/-- `s` once the line of its element, of value `v`, has been read and handed over. -/
def State.lineEmitted (s : State) (v : Int) : State :=
  { s.logRead (elementAddr s.base s.idx s.fmt.w) s.fmt.w.bytes with
    txt := s.txt ++ elementLine s.fmt s.name0 s.name1 s.idx v
    txq := []
    run := .busy .rangeLine }

section RangeLine

variable {s : State} {v : Int} (hs : s.sched = []) (hr : s.run = .busy .elementRange)
  (hv : elementAt s.mem s.fmt.w s.base s.idx = .ok v)
include hs hr hv

/-- An element step that can read its element, and its line: one request, then 89 bytes (R130). -/
theorem runSteps_rangeLine : runSteps 90 s = .next (textDone (s.lineEmitted v)) := by
  have hstep := (step_of_busy hs hr).trans
    (congrArg _ ((coreStep_elementRange hr).trans (elementStep_ok .rangeLine hv)))
  have hlen := elementLine_length s.fmt s.name0 s.name1 s.idx (natAbs_elementAt_le hv)
  have hrun := runSteps_handOver
    (s := (s.logRead (elementAddr s.base s.idx s.fmt.w) s.fmt.w.bytes).startText
      (elementLine s.fmt s.name0 s.name1 s.idx v) .rangeLine)
    hs rfl (.inl rfl) (elementLine_ne_nil _ _ _ _ _) rfl
  rw [hlen] at hrun
  rw [runSteps_succ 89 hstep, hrun]
  rfl

/-- Below `STOP` the next element step follows the line. -/
theorem runSteps_rangeLine_of_ne (he : s.idx ≠ s.stop) :
    runSteps 90 s = .next (s.lineEmitted v).nextIndex := by
  rw [runSteps_rangeLine hs hr hv, textDone_range_next (s := s.lineEmitted v) rfl he]

/-- At `STOP` the five bytes of the terminator follow the line, and the command completes. -/
theorem runSteps_rangeLine_of_eq (he : s.idx = s.stop) : runSteps 95 s = .next
    { s.lineEmitted v with txt := (s.lineEmitted v).txt ++ termLine, run := .idle } := by
  have hline := runSteps_rangeLine hs hr hv
  rw [textDone_range_end (s := s.lineEmitted v) rfl he] at hline
  exact (runSteps_add 5 hline).trans
    (runSteps_finalText (s := (s.lineEmitted v).startText termLine .finalText) hs rfl
      (List.cons_ne_nil _ _))

end RangeLine

/-! ### The whole range -/

/-- From the element step `k` indices below `STOP`, `RRNG` hands over the rest of its range and the
terminator, and completes with `IDX` at `STOP`. -/
theorem runSteps_range {s : State} {k : Nat} {text : List Byte} (hs : s.sched = [])
    (hr : s.run = .busy .elementRange) (hk : s.idx.toNat + k = s.stop.toNat)
    (ht : rangeText s s.fmt s.base (k + 1) s.idx = some text) :
    runSteps (90 * (k + 1) + 5) s = .next
      { s with
        idx := s.stop
        txt := s.txt ++ text ++ termLine
        txq := []
        run := .idle
        reads := s.reads ++ rangeReads s.fmt.w s.base (k + 1) s.idx } := by
  induction k generalizing s text with
  | zero =>
    obtain ⟨v, rest, hv, hrest, rfl⟩ := rangeText_succ_eq_some ht
    obtain rfl := Option.some.inj hrest
    have he : s.idx = s.stop := BitVec.eq_of_toNat_eq hk
    rw [runSteps_rangeLine_of_eq hs hr hv he]
    simp [State.lineEmitted, State.logRead, rangeReads, he]
  | succ k ih =>
    obtain ⟨v, rest, hv, hrest, rfl⟩ := rangeText_succ_eq_some ht
    have hne : s.idx ≠ s.stop := fun he => by
      rw [he] at hk
      omega
    have hnext : (s.idx + 1).toNat + k = s.stop.toNat := by bv_omega
    have hrun := ih (s := (s.lineEmitted v).nextIndex) hs rfl hnext
      (rangeText_eq_some_of_same hrest rfl rfl rfl)
    rw [show 90 * (k + 1 + 1) + 5 = 90 + (90 * (k + 1) + 5) by ring,
      runSteps_add _ (runSteps_rangeLine_of_ne hs hr hv hne), hrun]
    simp [State.lineEmitted, State.nextIndex, State.logRead, rangeReads_succ]

/-- Settles O32: the acceptance, and the run over the range from the latched operands. -/
theorem rrngEmitsTheWholeRange : Obligations.RrngEmitsTheWholeRange := by
  rintro f rs1 rs2 rs3 s _ text - hs hle rfl ht
  refine ⟨rangeText_length ht, _, exec_rrng_of_le hle, ?_⟩
  exact runSteps_range (s := s.loadRange f (s.x.get rs1) (s.x.get rs2) (s.x.get rs3)) hs rfl
    (Nat.add_sub_cancel' hle) (rangeText_eq_some_of_same ht rfl rfl rfl)

end Sys2Proof.Machine

/-! PROOFS. The decoder and the encoder: each undoes the other (O1, O2), the rows of the opcode table
(O3), the words it reserves (O4), the formats (O5), the sample words (O6) and the assembler (O7); and
that every step has a next state (O37). -/

namespace Sys2Proof

/-! ### Formats (R72, R73) -/

theorem QFormat.valid_iff (f : QFormat) : f.valid = true ↔ f.frac ≤ f.bits - 1 :=
  decide_eq_true_iff

theorem Instr.wf_iff (i : Instr) : i.wf = true ↔ i.fmt.frac ≤ i.fmt.bits - 1 :=
  i.fmt.valid_iff

theorem QFormat.valid_of_w64 (n : BitVec 6) : (⟨.w64, n⟩ : QFormat).valid = true :=
  (QFormat.valid_iff _).2 (Nat.le_sub_one_of_lt n.isLt)

/-- Of the 64 values of `n`, a width of `W` bits has `W` valid ones. -/
theorem countP_valid_of_width (w : Width) :
    ((List.range 64).map fun k => (⟨w, BitVec.ofNat 6 k⟩ : QFormat)).countP (·.valid) = w.bits := by
  cases w <;> decide

/-! ### A decoded word is the word encoded (R71, R76) -/

theorem formatOf_encode (i : Instr) : formatOf (encode i) = i.fmt := by
  cases i <;> exact formatOf_encodeFields ..

theorem decodeRow_of_z_ne {c : Cmd} (hz : zOf c ≠ 0) : decodeRow c = none := if_pos hz

/-- A word is built from its own fields, with the values its row fixes in the place of some. -/
theorem encodeFields_eq {c : Cmd} {op : BitVec 4} {e b a d : BitVec 3} (ho : opOf c = op)
    (hz : zOf c = 0) (h3 : rs3Of c = e) (h2 : rs2Of c = b) (h1 : rs1Of c = a) (hd : rdOf c = d) :
    encodeFields op e b a d (formatOf c) = c := by
  rw [← ho, ← h3, ← h2, ← h1, ← hd]
  exact encodeFields_of_fields c hz

/-- Each row of the decoder asks for zero in every field its instruction does not keep. -/
theorem encode_of_decodeRow {c : Cmd} {i : Instr} (h : decodeRow c = some i) : encode i = c := by
  have hz : zOf c = 0 := by
    by_contra hz
    cases (decodeRow_of_z_ne hz).symm.trans h
  simp only [decodeRow] at h
  rw [if_neg (not_not.2 hz)] at h
  split at h
  case h_11 => cases h
  all_goals
    next hop =>
      obtain ⟨hzero, hi⟩ := Option.ite_none_right_eq_some.1 h
      obtain rfl := Option.some.inj hi
      simp only [encode, regBits_regOfBits]
      refine encodeFields_eq (BitVec.eq_of_toNat_eq hop) hz ?_ ?_ ?_ ?_ <;> simp only [hzero]

theorem decodeRow_eq_some_iff {c : Cmd} {i : Instr} : decodeRow c = some i ↔ encode i = c :=
  ⟨encode_of_decodeRow, fun h => h ▸ decodeRow_encode i⟩

theorem decode_encode (i : Instr) :
    decode (encode i) = if i.wf then .legal i else .illegalFormat := by
  simp only [decode, decodeRow_encode]

theorem decode_eq_illegalCommand_iff {c : Cmd} :
    decode c = .illegalCommand ↔ decodeRow c = none := by
  cases h : decodeRow c with
  | none => simp only [decode, h]
  | some i =>
    rw [← encode_of_decodeRow h, decode_encode]
    split_ifs <;> simp

theorem decode_eq_legal_iff {c : Cmd} {i : Instr} :
    decode c = .legal i ↔ i.wf = true ∧ encode i = c := by
  constructor
  · intro h
    cases hrow : decodeRow c with
    | none => cases (decode_eq_illegalCommand_iff.2 hrow).symm.trans h
    | some j =>
      obtain rfl := encode_of_decodeRow hrow
      rw [decode_encode] at h
      split_ifs at h with hwf
      obtain rfl := Decoded.legal.inj h
      exact ⟨hwf, rfl⟩
  · rintro ⟨hwf, rfl⟩
    exact decode_encode_of_wf hwf

/-! ### The rows of the opcode table (R75) -/

theorem opcodeRow_mem (i : Instr) : opcodeRow i ∈ opcodeRows := by
  cases i <;> simp [opcodeRow, opcodeRows]

theorem opcodeRow_selects_encode (i : Instr) : (opcodeRow i).selects (encode i) = true := by
  refine decide_eq_true ?_
  cases i with
  | scale f rd => exact Laws.EncodeRow.scale f rd
  | fixmax f rd => exact Laws.EncodeRow.fixmax f rd
  | fixmin f rd => exact Laws.EncodeRow.fixmin f rd
  | fltmax f rd => exact Laws.EncodeRow.fltmax f rd
  | fltmin f rd => exact Laws.EncodeRow.fltmin f rd
  | tofix f rd rs1 => exact Laws.EncodeRow.tofix f rd rs1
  | toflt f rd rs1 => exact Laws.EncodeRow.toflt f rd rs1
  | rval f rs1 => exact Laws.EncodeRow.rval f rs1
  | relt f rs1 rs2 => exact Laws.EncodeRow.relt f rs1 rs2
  | rrng f rs1 rs2 rs3 => exact Laws.EncodeRow.rrng f rs1 rs2 rs3

/-- A field the mask covers whole has the value of the pattern. -/
theorem eq_of_and_allOnes {k : Nat} {x p : BitVec k} (h : x &&& BitVec.allOnes k = p) : x = p :=
  BitVec.and_allOnes.symm.trans h

/-- The words a row selects are the encodings of its instructions: the register fields outside its
mask are the operands. -/
theorem exists_encode_of_selects {c : Cmd} {r : OpcodeRow} (hr : r ∈ opcodeRows)
    (h : r.selects c = true) : ∃ i, opcodeRow i = r ∧ encode i = c := by
  obtain ⟨ho, hz, h3, h2, h1, hd, -, -⟩ := (and_eq_iff_fields c _ _).1 (of_decide_eq_true h)
  have operand : ∀ b, b = regBits (regOfBits b) := fun b => (regBits_regOfBits b).symm
  simp only [opcodeRows, List.mem_cons, List.not_mem_nil, or_false] at hr
  rcases hr with rfl | rfl | rfl | rfl | rfl | rfl | rfl | rfl | rfl | rfl <;>
    have word {e b a d} := encodeFields_eq (e := e) (b := b) (a := a) (d := d)
      (eq_of_and_allOnes ho) (eq_of_and_allOnes hz)
  · exact ⟨.scale (formatOf c) (regOfBits (rdOf c)), rfl, word (eq_of_and_allOnes h3)
      (eq_of_and_allOnes h2) (eq_of_and_allOnes h1) (operand _)⟩
  · exact ⟨.fixmax (formatOf c) (regOfBits (rdOf c)), rfl, word (eq_of_and_allOnes h3)
      (eq_of_and_allOnes h2) (eq_of_and_allOnes h1) (operand _)⟩
  · exact ⟨.fixmin (formatOf c) (regOfBits (rdOf c)), rfl, word (eq_of_and_allOnes h3)
      (eq_of_and_allOnes h2) (eq_of_and_allOnes h1) (operand _)⟩
  · exact ⟨.fltmax (formatOf c) (regOfBits (rdOf c)), rfl, word (eq_of_and_allOnes h3)
      (eq_of_and_allOnes h2) (eq_of_and_allOnes h1) (operand _)⟩
  · exact ⟨.fltmin (formatOf c) (regOfBits (rdOf c)), rfl, word (eq_of_and_allOnes h3)
      (eq_of_and_allOnes h2) (eq_of_and_allOnes h1) (operand _)⟩
  · exact ⟨.tofix (formatOf c) (regOfBits (rdOf c)) (regOfBits (rs1Of c)), rfl,
      word (eq_of_and_allOnes h3) (eq_of_and_allOnes h2) (operand _) (operand _)⟩
  · exact ⟨.toflt (formatOf c) (regOfBits (rdOf c)) (regOfBits (rs1Of c)), rfl,
      word (eq_of_and_allOnes h3) (eq_of_and_allOnes h2) (operand _) (operand _)⟩
  · exact ⟨.rval (formatOf c) (regOfBits (rs1Of c)), rfl, word (eq_of_and_allOnes h3)
      (eq_of_and_allOnes h2) (operand _) (eq_of_and_allOnes hd)⟩
  · exact ⟨.relt (formatOf c) (regOfBits (rs1Of c)) (regOfBits (rs2Of c)), rfl,
      word (eq_of_and_allOnes h3) (operand _) (operand _) (eq_of_and_allOnes hd)⟩
  · exact ⟨.rrng (formatOf c) (regOfBits (rs1Of c)) (regOfBits (rs2Of c)) (regOfBits (rs3Of c)), rfl,
      word (operand _) (operand _) (operand _) (eq_of_and_allOnes hd)⟩

theorem exists_selects_iff {c : Cmd} :
    (∃ r ∈ opcodeRows, r.selects c = true) ↔ ∃ i, encode i = c := by
  constructor
  · rintro ⟨r, hr, h⟩
    obtain ⟨i, -, hi⟩ := exists_encode_of_selects hr h
    exact ⟨i, hi⟩
  · rintro ⟨i, rfl⟩
    exact ⟨opcodeRow i, opcodeRow_mem i, opcodeRow_selects_encode i⟩

theorem encode_injective : Function.Injective encode := fun i _ h =>
  Option.some.inj ((decodeRow_encode i).symm.trans (decodeRow_eq_some_iff.2 h.symm))

/-- The words no row decodes, field by field (R77). -/
theorem decodeRow_eq_none_iff (c : Cmd) : decodeRow c = none ↔
    ((opOf c).toNat = 0 ∨ 11 ≤ (opOf c).toNat ∨ zOf c ≠ 0 ∨
     (1 ≤ (opOf c).toNat ∧ (opOf c).toNat ≤ 5 ∧ (rs1Of c ≠ 0 ∨ rs2Of c ≠ 0 ∨ rs3Of c ≠ 0)) ∨
     (6 ≤ (opOf c).toNat ∧ (opOf c).toNat ≤ 7 ∧ (rs2Of c ≠ 0 ∨ rs3Of c ≠ 0)) ∨
     ((opOf c).toNat = 8 ∧ (rdOf c ≠ 0 ∨ rs2Of c ≠ 0 ∨ rs3Of c ≠ 0)) ∨
     ((opOf c).toNat = 9 ∧ (rdOf c ≠ 0 ∨ rs3Of c ≠ 0)) ∨
     ((opOf c).toNat = 10 ∧ rdOf c ≠ 0)) := by
  by_cases hz : zOf c = 0
  case neg => exact iff_of_true (decodeRow_of_z_ne hz) (.inr (.inr (.inl hz)))
  simp only [decodeRow]
  rw [if_neg (not_not.2 hz)]
  split
  case h_11 =>
    refine iff_of_true rfl ?_
    simp only [imp_false] at *
    omega
  all_goals
    next hop => simp [hop, hz, Decidable.imp_iff_not_or]

/-! ### The assembler (R79) -/

theorem assemble_eq_none_iff (i : Instr) : assemble i = none ↔ ¬ i.wf = true := by
  simp [assemble]

/-! ### The statements -/

/-- Settles O1. -/
theorem decodeOfEncode : Obligations.DecodeOfEncode := decode_encode

/-- Settles O2. -/
theorem encodeOfDecode : Obligations.EncodeOfDecode := fun _ _ h => decode_eq_legal_iff.1 h

/-- Settles O3: to be selected by a row is to be the encoding of one of its instructions. -/
theorem decodeFollowsMatchAndMask : Obligations.DecodeFollowsMatchAndMask := by
  refine ⟨fun c => ?_, fun c r hr q hq h h' => ?_, by decide,
    fun i => ⟨opcodeRow_mem i, opcodeRow_selects_encode i⟩, fun c => ?_⟩
  · rw [exists_selects_iff, Ne, decode_eq_illegalCommand_iff, ← Ne, Option.ne_none_iff_exists']
    simp only [decodeRow_eq_some_iff]
  · obtain ⟨i, rfl, rfl⟩ := exists_encode_of_selects hr h
    obtain ⟨j, rfl, hj⟩ := exists_encode_of_selects hq h'
    rw [encode_injective hj]
  · rw [exists_selects_iff]
    constructor
    · rintro ⟨i, h⟩
      obtain ⟨hwf, rfl⟩ := decode_eq_legal_iff.1 h
      rw [formatOf_encode]
      exact ⟨⟨i, rfl⟩, i.wf_iff.1 hwf⟩
    · rintro ⟨⟨i, rfl⟩, hf⟩
      rw [formatOf_encode] at hf
      exact ⟨i, decode_encode_of_wf (i.wf_iff.2 hf)⟩

/-- Settles O4, by what each row asks of the fields. -/
theorem reservedWordsAreIllegal : Obligations.ReservedWordsAreIllegal :=
  ⟨fun c => decode_eq_illegalCommand_iff.trans (decodeRow_eq_none_iff c), by decide, by decide⟩

/-- Settles O5: the count is the sum of the four widths. -/
theorem validFormatsAre120 : Obligations.ValidFormatsAre120 := by
  refine ⟨QFormat.valid_iff, QFormat.valid_of_w64, ?_⟩
  simp only [List.countP_flatMap, Function.comp_def, countP_valid_of_width]
  rfl

/-- Settles O6, word by word. -/
theorem sampleWordsDecode : Obligations.SampleWordsDecode := by
  refine ⟨?_, ?_, ?_, ?_, ?_, ?_, ?_, ?_, ?_, ?_, ?_⟩ <;> decide

/-- Settles O7: each expansion computes, and the assembler's check is validity of the format. -/
theorem limitsPseudoInstruction : Obligations.LimitsPseudoInstruction := by
  refine ⟨fun _ => rfl, fun _ => rfl, fun _ => rfl, fun _ => rfl, fun f a => ?_, fun i => ?_⟩
  · simp [limitsExpansion]
  · rw [← not_le]
    exact (assemble_eq_none_iff i).trans (not_congr i.wf_iff)

end Sys2Proof

namespace Sys2Proof.Machine

/-! ### Every step has a next state -/

theorem exec_total (i : Instr) (s : State) : ∃ t, exec i s = .next t := by
  cases i with
  | rrng f rs1 rs2 rs3 =>
    rcases le_or_gt (s.getReg rs2).toNat (s.getReg rs3).toNat with hle | hlt
    · exact ⟨_, exec_rrng_of_le hle⟩
    · exact ⟨_, exec_rrng_of_lt hlt⟩
  | _ => exact ⟨_, rfl⟩

/-- Settles O37: a turn ends in a state or in a command to execute. -/
theorem everyStepHasANextState : Obligations.EveryStepHasANextState := by
  intro s
  cases h : turn s with
  | done t => exact ⟨t, by simp only [step, h]⟩
  | run i t =>
    simp only [step, h]
    exact exec_total i t

end Sys2Proof.Machine

/-! PROOFS. The Scale & Limit Calculator: the scale factor (O15), the fixed limits (O16) and the
float limits, as bit patterns and as rationals (O17). -/

namespace Sys2Proof.Machine

/-! ### The scale factor (R91) -/

/-- The scale factor of every format, valid or not, fits a register. -/
theorem scaleResult_toNat (f : QFormat) : (scaleResult (scaleFactor f)).toNat = 2 ^ f.n.toNat :=
  Nat.mod_eq_of_lt (Nat.pow_lt_pow_right one_lt_two f.n.isLt)

/-- Settles O15: `N < 64`, so `2^N` is not cut off. -/
theorem scaleWritesPowerOfTwo : Obligations.ScaleWritesPowerOfTwo := fun f rd _ hf =>
  ⟨rfl, scaleResult_toNat f, Laws.EncodeRow.scale f rd, decode_encode_of_wf hf⟩

/-! ### The fixed limits (R92, R93) -/

theorem two_pow_bits_le (w : Width) : (2 : ℤ) ^ (w.bits - 1) ≤ 2 ^ 63 := by
  cases w <;> decide

/-- A register holds every value of a width, sign-extended, without loss (R7, R23). -/
theorem fixResult_toInt {w : Width} {v : ℤ} (h : inWidth w v) : (fixResult v).toInt = v := by
  obtain ⟨hlo, hhi⟩ := h
  have hw := two_pow_bits_le w
  rw [fixedMin] at hlo
  rw [fixedMax] at hhi
  exact BitVec.toInt_ofInt_eq_self (by decide) (by omega) (by omega)

theorem fixedMin_le_fixedMax (w : Width) : fixedMin w ≤ fixedMax w := by
  cases w <;> decide

theorem inWidth_fixedMax (w : Width) : inWidth w (fixedMax w) := ⟨fixedMin_le_fixedMax w, le_rfl⟩

theorem inWidth_fixedMin (w : Width) : inWidth w (fixedMin w) := ⟨le_rfl, fixedMin_le_fixedMax w⟩

/-- Settles O16: both limits are values of their width. -/
theorem fixedLimitsAreWritten : Obligations.FixedLimitsAreWritten := fun f rd _ hf =>
  ⟨rfl, rfl, fixResult_toInt (inWidth_fixedMax f.w), fixResult_toInt (inWidth_fixedMin f.w),
    Laws.EncodeRow.fixmax f rd, Laws.EncodeRow.fixmin f rd,
    decode_encode_of_wf hf, decode_encode_of_wf hf⟩

/-! ### The fields of a binary32 as numbers (R8) -/

theorem f32Exp_eq_toNat (b : BitVec 32) : f32Exp b = b.toNat / 2 ^ 23 % 2 ^ 8 :=
  extract_toNat b 23 8

theorem f32Frac_eq_toNat (b : BitVec 32) : f32Frac b = b.toNat % 2 ^ 23 := by
  rw [f32Frac, extract_toNat, pow_zero, Nat.div_one]

theorem f32Sign_eq_decide (b : BitVec 32) : f32Sign b = decide (2 ^ 31 ≤ b.toNat) := by
  rw [f32Sign, ← b.msb_eq_decide, b.msb_eq_getLsbD_last]

/-- The word of a power of two, signed: the significand `2^23` and the unit `2^(k + 127 − 150)` make
`2^k`. -/
theorem f32Rat_of_toNat {b : BitVec 32} {neg : Bool} {k : ℕ} (hk : k ≤ 127)
    (hb : b.toNat = neg.toNat * 2 ^ 31 + (k + 127) * 2 ^ 23) :
    f32Rat b = (if neg then -1 else 1) * 2 ^ k := by
  have hneg := neg.toNat_lt
  have he : f32Exp b = k + 127 := by rw [f32Exp_eq_toNat]; omega
  have hm : f32Frac b = 0 := by rw [f32Frac_eq_toNat]; omega
  have hs : f32Sign b = neg := by
    rw [f32Sign_eq_decide]
    cases neg with
    | false => exact decide_eq_false (by rw [Bool.toNat_false] at hb; omega)
    | true => exact decide_eq_true (by rw [Bool.toNat_true] at hb; omega)
  have hexp : ((23 : ℕ) : ℤ) + (((k + 127 : ℕ) : ℤ) - 150) = (k : ℕ) := by omega
  have hscale : (2 : ℚ) ^ 23 * 2 ^ (((k + 127 : ℕ) : ℤ) - 150) = 2 ^ k := by
    rw [← zpow_natCast, ← zpow_add₀ two_ne_zero, hexp, zpow_natCast]
  rw [f32Rat, hs, he, hm, if_neg (Nat.succ_ne_zero (k + 126)), Nat.cast_zero, add_zero, hscale]

/-! ### The float limits (R94, R95) -/

theorem limitExp_le (f : QFormat) : limitExp f ≤ 63 := by
  have hw : f.w.bits ≤ 64 := by cases f.w <;> decide
  rw [limitExp, QFormat.bits]
  omega

/-- The exponent field of a float limit is at most `63 + 127`, so the sum does not wrap. -/
theorem floatMaxBits_toNat (f : QFormat) :
    (floatMaxBits f).toNat = (limitExp f + 127) * 2 ^ 23 := by
  have hk := limitExp_le f
  rw [floatMaxBits, f32OfPow2, BitVec.toNat_ofNat]
  omega

theorem floatMinBits_toNat (f : QFormat) :
    (floatMinBits f).toNat = 0x80000000 + (limitExp f + 127) * 2 ^ 23 := by
  have hk := limitExp_le f
  have hsign : (0x80000000 : BitVec 32).toNat = 0x80000000 := by decide
  rw [floatMinBits, ← floatMaxBits, BitVec.toNat_add, floatMaxBits_toNat, hsign]
  omega

theorem f32Rat_floatMaxBits (f : QFormat) : f32Rat (floatMaxBits f) = 2 ^ limitExp f := by
  have hk : limitExp f ≤ 127 := (limitExp_le f).trans (by decide)
  rw [f32Rat_of_toNat (neg := false) hk (by simp [floatMaxBits_toNat]),
    if_neg Bool.false_ne_true, one_mul]

theorem f32Rat_floatMinBits (f : QFormat) : f32Rat (floatMinBits f) = -2 ^ limitExp f := by
  have hk : limitExp f ≤ 127 := (limitExp_le f).trans (by decide)
  rw [f32Rat_of_toNat (neg := true) hk (by simp [floatMinBits_toNat]), if_pos rfl, neg_one_mul]

/-- Settles O17 with the model's own bit patterns. -/
theorem floatLimitsAreWritten : Obligations.FloatLimitsAreWritten := fun f rd _ hf =>
  ⟨floatMaxBits f, floatMinBits f, rfl, rfl, floatMaxBits_toNat f, floatMinBits_toNat f,
    f32Rat_floatMaxBits f, f32Rat_floatMinBits f,
    Laws.EncodeRow.fltmax f rd, Laws.EncodeRow.fltmin f rd,
    decode_encode_of_wf hf, decode_encode_of_wf hf⟩

end Sys2Proof.Machine

/-! PROOFS. The Float→Fixed Converter: a finite binary32 is saturated and truncated by its exact
value (O18), which makes `to_fixed` a clamp of the truncated product and so monotone (O19). -/

namespace Sys2Proof.Machine

/-! ### Truncation toward zero (R9) -/

theorem truncRat_of_nonneg {q : ℚ} (h : 0 ≤ q) : truncRat q = ⌊q⌋ := if_pos h

theorem truncRat_of_nonpos {q : ℚ} (h : q ≤ 0) : truncRat q = ⌈q⌉ := by
  rcases h.eq_or_lt with rfl | hneg
  · rw [truncRat_of_nonneg le_rfl, Int.floor_zero, Int.ceil_zero]
  · exact if_neg hneg.not_ge

@[simp] theorem truncRat_intCast (z : ℤ) : truncRat z = z := by
  rw [truncRat, Int.floor_intCast, Int.ceil_intCast, ite_self]

theorem truncRat_mono : Monotone truncRat := by
  intro p q hpq
  rcases le_total 0 p with hp | hp
  · rw [truncRat_of_nonneg hp, truncRat_of_nonneg (hp.trans hpq)]
    exact Int.floor_mono hpq
  rcases le_total 0 q with hq | hq
  · rw [truncRat_of_nonpos hp, truncRat_of_nonneg hq]
    exact (Int.ceil_le.2 (by simpa using hp)).trans (Int.floor_nonneg.2 hq)
  · rw [truncRat_of_nonpos hp, truncRat_of_nonpos hq]
    exact Int.ceil_mono hpq

/-- Below a positive integer the truncation stays below it: there it rounds down, or up to 0. -/
theorem truncRat_lt {q : ℚ} {z : ℤ} (hz : 0 < z) (h : q < z) : truncRat q < z := by
  rcases le_total 0 q with hq | hq
  · rw [truncRat_of_nonneg hq]
    exact Int.floor_lt.2 h
  · rw [truncRat_of_nonpos hq]
    exact (Int.ceil_le.2 (by simpa using hq)).trans_lt hz

/-- The integer division of the model is the truncation of the exact quotient. -/
theorem truncRat_intCast_div (a : ℤ) (d : ℕ) : truncRat ((a : ℚ) / d) = a.tdiv d := by
  have hd : (0 : ℚ) ≤ d := Nat.cast_nonneg d
  rcases le_total 0 a with ha | ha
  · rw [truncRat_of_nonneg (div_nonneg (Int.cast_nonneg ha) hd), Rat.floor_intCast_div_natCast,
      Int.tdiv_eq_ediv_of_nonneg ha]
  · have hfloor := Rat.floor_intCast_div_natCast (-a) d
    rw [Int.cast_neg, neg_div, Int.floor_neg] at hfloor
    rw [truncRat_of_nonpos (div_nonpos_of_nonpos_of_nonneg (Int.cast_nonpos.2 ha) hd),
      ← neg_inj, hfloor, ← Int.neg_tdiv, Int.tdiv_eq_ediv_of_nonneg (Int.neg_nonneg.2 ha)]

/-! ### A finite binary32 in units of `2^(−149)` (R8) -/

theorem f32Mag_div_units (e m : ℕ) : (f32Mag e m : ℚ) / 2 ^ 149 =
    if e = 0 then (m : ℚ) * 2 ^ (-149 : ℤ) else (2 ^ 23 + m : ℚ) * 2 ^ ((e : ℤ) - 150) := by
  cases e with
  | zero => rw [f32Mag, if_pos rfl, if_pos rfl, zpow_neg, div_eq_mul_inv]; rfl
  | succ k =>
    have hexp : ((k + 1 : ℕ) : ℤ) - 150 = (k : ℕ) - (149 : ℕ) := by omega
    rw [f32Mag, if_neg k.succ_ne_zero, if_neg k.succ_ne_zero, hexp, zpow_sub₀ two_ne_zero,
      zpow_natCast, zpow_natCast, Nat.add_sub_cancel, ← mul_div_assoc]
    norm_cast

theorem f32Value_of_finite {b : BitVec 32} (hb : f32Exp b ≠ 255) :
    ∃ v : ℤ, f32Value b = .fin v ∧ f32Rat b = v / 2 ^ 149 := by
  refine ⟨_, if_neg hb, ?_⟩
  rw [f32Rat, ← f32Mag_div_units]
  cases f32Sign b with
  | false => simp
  | true => simp [neg_div]

/-! ### `to_fixed` of a NaN, an infinity and a finite operand (R100, R101) -/

theorem toFixed_of_isNaN (f : QFormat) {b : BitVec 32} (hb : f32IsNaN b) :
    toFixed f b = fixedMax f.w := by
  obtain ⟨he, hm⟩ := hb
  rw [toFixed, f32Value, if_pos he, if_pos hm, nanResult]

theorem toFixed_of_isInf (f : QFormat) {neg : Bool} {b : BitVec 32} (hb : f32IsInf neg b) :
    toFixed f b = if neg then fixedMin f.w else fixedMax f.w := by
  obtain ⟨he, hm, hs⟩ := hb
  rw [toFixed, f32Value, if_pos he, if_neg (not_not.2 hm), hs]
  cases neg with
  | false => rfl
  | true => rfl

section Finite
variable {f : QFormat} {b : BitVec 32}

/-- The model's comparisons and its product, which it takes in units of `2^(−149)`, are those of
the exact value. -/
theorem toFixed_of_finite (hb : f32Exp b ≠ 255) : toFixed f b =
    if 2 ^ limitExp f ≤ f32Rat b then fixedMax f.w
    else if f32Rat b < -2 ^ limitExp f then fixedMin f.w
    else truncRat (f32Rat b * 2 ^ f.frac) := by
  obtain ⟨v, hv, hq⟩ := f32Value_of_finite hb
  have hunit : (0 : ℚ) < 2 ^ 149 := by positivity
  have hhigh : (2 : ℚ) ^ limitExp f ≤ v / 2 ^ 149 ↔ floatMaxUnits f ≤ v := by
    rw [le_div_iff₀ hunit, ← pow_add, floatMaxUnits]
    exact_mod_cast Iff.rfl
  have hlow : (v : ℚ) / 2 ^ 149 < -2 ^ limitExp f ↔ v < floatMinUnits f := by
    rw [div_lt_iff₀ hunit, neg_mul, ← pow_add, floatMinUnits]
    exact_mod_cast Iff.rfl
  have hprod : truncRat ((v : ℚ) / 2 ^ 149 * 2 ^ f.frac) = truncProduct f v := by
    rw [div_mul_eq_mul_div]
    exact_mod_cast truncRat_intCast_div (v * 2 ^ f.frac) (2 ^ 149)
  simp only [toFixed, hv, hq, hhigh, hlow, hprod]

theorem toFixed_of_ge (hb : f32Exp b ≠ 255) (h : 2 ^ limitExp f ≤ f32Rat b) :
    toFixed f b = fixedMax f.w := by
  rw [toFixed_of_finite hb, if_pos h]

theorem toFixed_of_lt (hb : f32Exp b ≠ 255) (h : f32Rat b < -2 ^ limitExp f) :
    toFixed f b = fixedMin f.w := by
  have hpos : (0 : ℚ) < 2 ^ limitExp f := by positivity
  rw [toFixed_of_finite hb, if_neg (by linarith), if_pos h]

theorem toFixed_of_within (hb : f32Exp b ≠ 255) (hlo : -2 ^ limitExp f ≤ f32Rat b)
    (hhi : f32Rat b < 2 ^ limitExp f) : toFixed f b = truncRat (f32Rat b * 2 ^ f.frac) := by
  rw [toFixed_of_finite hb, if_neg hhi.not_ge, if_neg hlo.not_gt]

/-- Either zero lies within every pair of limits. -/
theorem toFixed_of_f32Value_zero (h : f32Value b = .fin 0) : toFixed f b = 0 := by
  have hmax : ¬ floatMaxUnits f ≤ 0 := not_le.2 (pow_pos two_pos _)
  have hmin : ¬ 0 < floatMinUnits f := not_lt.2 (neg_nonpos.2 (pow_nonneg two_pos.le _))
  simp only [toFixed, h, if_neg hmax, if_neg hmin, truncProduct, zero_mul, Int.zero_tdiv]

end Finite

/-! ### `to_fixed` as a clamp of the truncated product (R103, R104) -/

section Scaled
variable {f : QFormat} (hf : f.valid = true)
include hf

theorem limit_mul_scale : (2 : ℚ) ^ limitExp f * 2 ^ f.frac = 2 ^ (f.w.bits - 1) := by
  have hn := f.valid_iff.1 hf
  rw [← pow_add, limitExp, Nat.sub_add_cancel hn, QFormat.bits]

/-- `float_max` scaled is one unit beyond `fixed_max`. -/
theorem floatMax_mul_scale : (2 : ℚ) ^ limitExp f * 2 ^ f.frac = (fixedMax f.w + 1 : ℤ) := by
  rw [limit_mul_scale hf, fixedMax, Int.sub_add_cancel]
  norm_cast

/-- `float_min` scaled is `fixed_min` itself. -/
theorem floatMin_mul_scale : -(2 : ℚ) ^ limitExp f * 2 ^ f.frac = fixedMin f.w := by
  rw [neg_mul, limit_mul_scale hf, fixedMin]
  norm_cast

/-- Saturation at the float limits is saturation of the truncated product at the fixed limits, for
every finite operand. -/
theorem toFixed_eq_clamp {b : BitVec 32} (hb : f32Exp b ≠ 255) : toFixed f b =
    max (fixedMin f.w) (min (fixedMax f.w) (truncRat (f32Rat b * 2 ^ f.frac))) := by
  have hscale : (0 : ℚ) < 2 ^ f.frac := by positivity
  rcases le_or_gt (2 ^ limitExp f) (f32Rat b) with hhi | hhi
  · have htrunc := truncRat_mono (mul_le_mul_of_nonneg_right hhi hscale.le)
    rw [floatMax_mul_scale hf, truncRat_intCast] at htrunc
    rw [toFixed_of_ge hb hhi, min_eq_left (Int.add_one_le_iff.1 htrunc).le,
      max_eq_right (fixedMin_le_fixedMax f.w)]
  rcases lt_or_ge (f32Rat b) (-2 ^ limitExp f) with hlo | hlo
  · have htrunc := truncRat_mono (mul_le_mul_of_nonneg_right hlo.le hscale.le)
    rw [floatMin_mul_scale hf, truncRat_intCast] at htrunc
    rw [toFixed_of_lt hb hlo, max_eq_left ((min_le_right _ _).trans htrunc)]
  · have htrunc := truncRat_mono (mul_le_mul_of_nonneg_right hlo hscale.le)
    have hpos : 0 < fixedMax f.w + 1 := by
      rw [fixedMax, Int.sub_add_cancel]
      positivity
    rw [floatMin_mul_scale hf, truncRat_intCast] at htrunc
    have hlt := truncRat_lt hpos
      (floatMax_mul_scale hf ▸ mul_lt_mul_of_pos_right hhi hscale)
    rw [toFixed_of_within hb hlo hhi, min_eq_right (Int.le_of_lt_add_one hlt),
      max_eq_right htrunc]

end Scaled

/-! ### Range and monotonicity (R106) -/

theorem inWidth_toFixed {f : QFormat} (hf : f.valid = true) (b : BitVec 32) :
    inWidth f.w (toFixed f b) := by
  by_cases hb : f32Exp b = 255
  · by_cases hm : f32Frac b = 0
    · rw [toFixed_of_isInf f ⟨hb, hm, rfl⟩]
      split
      · exact inWidth_fixedMin f.w
      · exact inWidth_fixedMax f.w
    · rw [toFixed_of_isNaN f ⟨hb, hm⟩]
      exact inWidth_fixedMax f.w
  · rw [toFixed_eq_clamp hf hb]
    exact ⟨le_max_left _ _, max_le (fixedMin_le_fixedMax f.w) (min_le_left _ _)⟩

theorem toFixed_le_of_f32Lt {f : QFormat} (hf : f.valid = true) {b c : BitVec 32}
    (h : f32Lt b c) : toFixed f b ≤ toFixed f c := by
  obtain ⟨-, -, ⟨hinf, -⟩ | ⟨hinf, -⟩ | ⟨hb, hc, hlt⟩⟩ := h
  · rw [toFixed_of_isInf f hinf, if_pos rfl]
    exact (inWidth_toFixed hf c).1
  · rw [toFixed_of_isInf f hinf, if_neg Bool.false_ne_true]
    exact (inWidth_toFixed hf b).2
  · rw [toFixed_eq_clamp hf hb, toFixed_eq_clamp hf hc]
    gcongr
    exact truncRat_mono (mul_le_mul_of_nonneg_right hlt.le (by positivity))

/-! ### The float limits as operands (R104) -/

theorem f32Exp_floatMaxBits_ne (f : QFormat) : f32Exp (floatMaxBits f) ≠ 255 := by
  have hk := limitExp_le f
  rw [f32Exp_eq_toNat, floatMaxBits_toNat]
  omega

theorem f32Exp_floatMinBits_ne (f : QFormat) : f32Exp (floatMinBits f) ≠ 255 := by
  have hk := limitExp_le f
  rw [f32Exp_eq_toNat, floatMinBits_toNat]
  omega

theorem toFixed_floatMaxBits (f : QFormat) : toFixed f (floatMaxBits f) = fixedMax f.w :=
  toFixed_of_ge (f32Exp_floatMaxBits_ne f) (f32Rat_floatMaxBits f).ge

/-- `float_min` is not saturated: its product by `2^N` is `fixed_min` itself. -/
theorem toFixed_floatMinBits {f : QFormat} (hf : f.valid = true) :
    toFixed f (floatMinBits f) = fixedMin f.w := by
  have hpos : (0 : ℚ) < 2 ^ limitExp f := by positivity
  rw [toFixed_of_within (f32Exp_floatMinBits_ne f) (f32Rat_floatMinBits f).ge
      (by rw [f32Rat_floatMinBits]; linarith),
    f32Rat_floatMinBits, floatMin_mul_scale hf, truncRat_intCast]

/-! ### The statements -/

/-- Settles O18, one operand class at a time. -/
theorem tofixSaturatesAndTruncates : Obligations.TofixSaturatesAndTruncates := by
  intro f rd rs1 s hf
  refine ⟨toFixed f (f32Operand (s.getReg rs1)), rfl, Laws.EncodeRow.tofix f rd rs1,
    decode_encode_of_wf hf, ?_⟩
  rintro b rfl
  exact ⟨toFixed_of_isNaN f, toFixed_of_isInf f, toFixed_of_isInf f,
    toFixed_of_ge, toFixed_of_lt, toFixed_of_within⟩

/-- Settles O19: beyond the limits, monotonicity and the range leave only the saturated value. -/
theorem toFixedLaws : Obligations.ToFixedLaws := by
  intro f hf
  have hmono : ∀ b c, f32Lt b c → toFixed f b ≤ toFixed f c := fun _ _ => toFixed_le_of_f32Lt hf
  have habove : ∀ b, f32Lt (floatMaxBits f) b → toFixed f b = fixedMax f.w := fun b h =>
    (inWidth_toFixed hf b).2.antisymm (toFixed_floatMaxBits f ▸ hmono _ _ h)
  have hbelow : ∀ b, f32Lt b (floatMinBits f) → toFixed f b = fixedMin f.w := fun b h =>
    (toFixed_floatMinBits hf ▸ hmono _ _ h).antisymm (inWidth_toFixed hf b).1
  have hwithin : ∀ b, f32Exp b ≠ 255 → f32Rat (floatMinBits f) ≤ f32Rat b →
      f32Rat b < f32Rat (floatMaxBits f) → toFixed f b = truncRat (f32Rat b * 2 ^ f.n.toNat) := by
    rw [f32Rat_floatMinBits, f32Rat_floatMaxBits]
    exact fun _ => toFixed_of_within
  exact ⟨⟨toFixed_floatMaxBits f, toFixed_floatMinBits hf, habove, hbelow⟩,
    ⟨toFixed_of_f32Value_zero (by decide), toFixed_of_f32Value_zero (by decide)⟩,
    hwithin, hmono, inWidth_toFixed hf⟩

end Sys2Proof.Machine

/-! PROOFS. `RNE24` of R111: the multiple of its last significant bit nearest to a number, the even
one in a tie, is the nearest integer with at most 24 significant bits (O20). -/

namespace Sys2Proof.Machine

/-! ### Integers with at most 24 significant bits -/

theorem has24Bits_of_lt {v : ℤ} (h : v.natAbs < 2 ^ 24) : has24Bits v := ⟨v, 0, h, by simp⟩

theorem has24Bits_two_pow (k : ℕ) : has24Bits (2 ^ k) := ⟨1, k, by decide, by simp⟩

theorem has24Bits_neg_two_pow (k : ℕ) : has24Bits (-2 ^ k) := ⟨-1, k, by decide, by simp⟩

/-- A multiple of `2^k` of magnitude up to `2^(24 + k)` fits, and so does the end point: there the
significand has become `2^24` and gives up its last bit. -/
theorem has24Bits_of_dvd {v : ℤ} {k : ℕ} (hd : 2 ^ k ∣ v) (hv : v.natAbs ≤ 2 ^ (24 + k)) :
    has24Bits v := by
  obtain ⟨c, rfl⟩ := hd
  have hc : c.natAbs ≤ 2 ^ 24 := by
    have hmul : 2 ^ k * c.natAbs ≤ 2 ^ k * 2 ^ 24 := by
      simpa [Int.natAbs_mul, Int.natAbs_pow, pow_add, mul_comm] using hv
    exact Nat.le_of_mul_le_mul_left hmul (by positivity)
  rcases hc.lt_or_eq with hlt | heq
  · exact ⟨c, k, hlt, mul_comm _ _⟩
  · obtain ⟨d, rfl⟩ : (2 : ℤ) ∣ c := by omega
    exact ⟨d, k + 1, by omega, by ring⟩

/-- From `2^(L − 1)` on, the last of 24 significant bits has weight `2^(L − 24)` or more. -/
theorem two_pow_dvd_of_has24Bits {u : ℤ} {L : ℕ} (hu : has24Bits u) (hL : 2 ^ (L - 1) ≤ u.natAbs) :
    (2 : ℤ) ^ (L - 24) ∣ u := by
  obtain ⟨m, e, hm, rfl⟩ := hu
  have hlt : 2 ^ (L - 1) < 2 ^ (24 + e) :=
    calc 2 ^ (L - 1) ≤ m.natAbs * 2 ^ e := by simpa [Int.natAbs_mul, Int.natAbs_pow] using hL
      _ < 2 ^ (24 + e) := by rw [pow_add]; exact Nat.mul_lt_mul_of_pos_right hm (by positivity)
  have hexp : L - 1 < 24 + e := (Nat.pow_lt_pow_iff_right one_lt_two).1 hlt
  exact dvd_mul_of_dvd_right (pow_dvd_pow 2 (by omega)) m

theorem two_pow_dvd_natAbs {k : ℕ} {z : ℤ} (h : 2 ^ k ∣ z) : 2 ^ k ∣ z.natAbs :=
  Int.natCast_dvd.1 (by exact_mod_cast h)

/-! ### Nearest multiples of a power of two, ties to even -/

/-- `r` is the multiple of `2^k` nearest to `v`, and in a tie the one whose last bit is 0. -/
structure NearestEvenMultiple (k : ℕ) (v r : ℤ) : Prop where
  dvd : 2 ^ k ∣ r
  two_mul_dist_le : 2 * |v - r| ≤ 2 ^ k
  even_of_tie : 2 * |v - r| = 2 ^ k → 2 ^ (k + 1) ∣ r

namespace NearestEvenMultiple
variable {k : ℕ} {v r z : ℤ}

theorem neg (h : NearestEvenMultiple k v r) : NearestEvenMultiple k (-v) (-r) := by
  have hdist : |-v - -r| = |v - r| := by rw [neg_sub_neg, abs_sub_comm]
  exact ⟨h.dvd.neg_right, hdist ▸ h.two_mul_dist_le,
    fun ht => (h.even_of_tie (hdist ▸ ht)).neg_right⟩

/-- Another multiple of `2^k` lies at least `2^k` away from `r`. -/
theorem two_pow_le_dist_add_dist (h : NearestEvenMultiple k v r) (hz : 2 ^ k ∣ z) (hne : z ≠ r) :
    2 ^ k ≤ |v - z| + |v - r| :=
  calc 2 ^ k ≤ |z - r| := Int.le_of_dvd (abs_pos.2 (sub_ne_zero.2 hne))
        ((dvd_abs _ _).2 (dvd_sub hz h.dvd))
    _ ≤ |z - v| + |v - r| := abs_sub_le z v r
    _ = |v - z| + |v - r| := by rw [abs_sub_comm z v]

theorem dist_le (h : NearestEvenMultiple k v r) (hz : 2 ^ k ∣ z) : |v - r| ≤ |v - z| := by
  rcases eq_or_ne z r with rfl | hne
  · exact le_rfl
  · have hsum := h.two_pow_le_dist_add_dist hz hne
    have hr := h.two_mul_dist_le
    omega

theorem dvd_of_dist_eq (h : NearestEvenMultiple k v r) (hz : 2 ^ k ∣ z) (hne : z ≠ r)
    (heq : |v - z| = |v - r|) : 2 ^ (k + 1) ∣ r := by
  have hsum := h.two_pow_le_dist_add_dist hz hne
  have hr := h.two_mul_dist_le
  exact h.even_of_tie (by omega)

end NearestEvenMultiple

/-! ### `RNE24` -/

theorem bitLength_eq_size (a : ℕ) : bitLength a = Nat.size a :=
  (bitLength_le (Nat.lt_size_self a)).antisymm (Nat.size_le.2 (lt_two_pow_bitLength a))

theorem bitLength_pos {a : ℕ} (h0 : a ≠ 0) : 0 < bitLength a := by
  rw [bitLength_eq_size]
  exact Nat.size_pos.2 (Nat.pos_of_ne_zero h0)

theorem two_pow_bitLength_le {a : ℕ} (h0 : a ≠ 0) : 2 ^ (bitLength a - 1) ≤ a := by
  have hlt := Nat.sub_one_lt_of_lt (bitLength_pos h0)
  exact Nat.lt_size.1 (bitLength_eq_size a ▸ hlt)

theorem rneMag_of_bitLength_le {a : ℕ} (h : bitLength a ≤ 24) : rneMag a = a := if_pos h

/-- A multiple of `2^(k + 1)` at distance at most `2^k`, on either side. -/
theorem nearestEvenMultiple_of_dist {k a c d : ℕ}
    (hd : a = c * 2 ^ (k + 1) + d ∨ a + d = c * 2 ^ (k + 1)) (hle : d ≤ 2 ^ k)
    (htie : d = 2 ^ k → c % 2 = 0) : NearestEvenMultiple (k + 1) a ↑(c * 2 ^ (k + 1)) := by
  have hdist : |(a : ℤ) - ↑(c * 2 ^ (k + 1))| = d := by
    rw [abs_eq (Int.natCast_nonneg d)]
    omega
  have hhalf : (2 : ℤ) ^ (k + 1) = 2 * ↑(2 ^ k : ℕ) := by rw [pow_succ']; norm_cast
  refine ⟨by exact_mod_cast Dvd.intro_left c rfl, by omega, fun ht => ?_⟩
  obtain ⟨e, rfl⟩ : 2 ∣ c := Nat.dvd_of_mod_eq_zero (htie (by omega))
  exact_mod_cast Dvd.intro_left e (by ring)

/-- The comparison of the bits cut off with half the weight `2^sh` of the last bit kept. -/
theorem rneMag_nearestEvenMultiple (a : ℕ) :
    NearestEvenMultiple (bitLength a - 24) a (rneMag a) := by
  rcases le_or_gt (bitLength a) 24 with h24 | h24
  · rw [rneMag_of_bitLength_le h24, Nat.sub_eq_zero_of_le h24]
    exact ⟨one_dvd _, by simp, by simp⟩
  obtain ⟨k, hk⟩ := Nat.exists_eq_add_one.2 (Nat.sub_pos_of_lt h24)
  rw [rneMag, if_neg h24.not_ge, hk]
  dsimp only
  rw [Nat.add_sub_cancel]
  have hrem : a % 2 ^ (k + 1) < 2 ^ (k + 1) := Nat.mod_lt _ (by positivity)
  have hdiv : a / 2 ^ (k + 1) * 2 ^ (k + 1) + a % 2 ^ (k + 1) = a := Nat.div_add_mod' a _
  generalize a / 2 ^ (k + 1) = q at hdiv ⊢
  generalize a % 2 ^ (k + 1) = rem at hdiv hrem ⊢
  split_ifs with hup
  · have hnext : (q + 1) * 2 ^ (k + 1) = q * 2 ^ (k + 1) + 2 ^ (k + 1) := Nat.succ_mul q _
    exact nearestEvenMultiple_of_dist (d := 2 ^ (k + 1) - rem) (.inr (by omega))
      (by omega) (by omega)
  · exact nearestEvenMultiple_of_dist (d := rem) (.inl hdiv.symm) (by omega) (by omega)

theorem rne24_natCast (a : ℕ) : rne24 a = rneMag a := by
  rw [rne24, if_neg (Int.natCast_nonneg a).not_gt, Int.natAbs_natCast]

theorem rne24_neg (v : ℤ) : rne24 (-v) = -rne24 v := by
  rcases lt_trichotomy v 0 with h | rfl | h
  · rw [rne24, rne24, if_neg (by omega), if_pos h, neg_neg, Int.natAbs_neg]
  · rfl
  · rw [rne24, rne24, if_pos (by omega), if_neg (by omega), Int.natAbs_neg]

theorem rne24_nearestEvenMultiple (v : ℤ) :
    NearestEvenMultiple (bitLength v.natAbs - 24) v (rne24 v) := by
  obtain ⟨a, rfl | rfl⟩ := v.eq_nat_or_neg
  · rw [rne24_natCast, Int.natAbs_natCast]
    exact rneMag_nearestEvenMultiple a
  · rw [rne24_neg, rne24_natCast, Int.natAbs_neg, Int.natAbs_natCast]
    exact (rneMag_nearestEvenMultiple a).neg

theorem natAbs_rne24 (v : ℤ) : (rne24 v).natAbs = rneMag v.natAbs := by
  rw [rne24]
  split_ifs
  · rw [Int.natAbs_neg, Int.natAbs_natCast]
  · exact Int.natAbs_natCast _

theorem has24Bits_rne24 (v : ℤ) : has24Bits (rne24 v) := by
  rcases le_or_gt (bitLength v.natAbs) 24 with h24 | h24
  · refine has24Bits_of_lt ?_
    rw [natAbs_rne24, rneMag_of_bitLength_le h24]
    exact (lt_two_pow_bitLength _).trans_le (Nat.pow_le_pow_right two_pos h24)
  · exact has24Bits_of_dvd (rne24_nearestEvenMultiple v).dvd (by
      rw [natAbs_rne24, Nat.add_sub_cancel' h24.le]
      exact rneMag_le_of_lt (lt_two_pow_bitLength _))

/-- A number with 24 significant bits is among the multiples `RNE24(v)` is the nearest of, or it
lies below all of `v`'s binade and so further off than the binade's first number. -/
theorem dvd_or_dist_rne24_lt {u : ℤ} (hu : has24Bits u) (v : ℤ) :
    2 ^ (bitLength v.natAbs - 24) ∣ u ∨ |v - rne24 v| < |v - u| := by
  refine or_iff_not_imp_left.2 fun hd => ?_
  have hlong : bitLength v.natAbs - 24 ≠ 0 := fun h => hd (h ▸ one_dvd u)
  have hsmall : u.natAbs < 2 ^ (bitLength v.natAbs - 1) :=
    lt_of_not_ge fun h => hd (two_pow_dvd_of_has24Bits hu h)
  have hv : v.natAbs ≠ 0 := fun h => hlong (by rw [h]; rfl)
  have hfirst : (2 : ℤ) ^ (bitLength v.natAbs - 1) ≤ |v| := by
    rw [Int.abs_eq_natAbs]
    exact_mod_cast two_pow_bitLength_le hv
  have hdist : |v - v.sign * 2 ^ (bitLength v.natAbs - 1)| =
      |v| - 2 ^ (bitLength v.natAbs - 1) := by
    have hfactor : v - v.sign * 2 ^ (bitLength v.natAbs - 1) =
        v.sign * (|v| - 2 ^ (bitLength v.natAbs - 1)) := by rw [mul_sub, Int.sign_mul_abs]
    rw [hfactor, abs_mul, Int.abs_sign_of_ne_zero (Int.natAbs_ne_zero.1 hv), one_mul,
      abs_of_nonneg (sub_nonneg.2 hfirst)]
  calc |v - rne24 v|
      ≤ |v - v.sign * 2 ^ (bitLength v.natAbs - 1)| :=
        (rne24_nearestEvenMultiple v).dist_le
          (dvd_mul_of_dvd_right (pow_dvd_pow 2 (by omega)) v.sign)
    _ = |v| - 2 ^ (bitLength v.natAbs - 1) := hdist
    _ < |v| - |u| := by
      rw [Int.abs_eq_natAbs u]
      exact sub_lt_sub_left (by exact_mod_cast hsmall) _
    _ ≤ |v - u| := abs_sub_abs_le_abs_sub v u

theorem dist_rne24_le {u : ℤ} (hu : has24Bits u) (v : ℤ) : |v - rne24 v| ≤ |v - u| := by
  rcases dvd_or_dist_rne24_lt hu v with hd | hlt
  · exact (rne24_nearestEvenMultiple v).dist_le hd
  · exact hlt.le

theorem rne24_eq_self {v : ℤ} (h : has24Bits v) : rne24 v = v := by
  have hdist := dist_rne24_le h v
  rw [sub_self, abs_zero] at hdist
  exact (sub_eq_zero.1 (abs_nonpos_iff.1 hdist)).symm

/-- Two numbers out of order after rounding would both have to lie half way between the results. -/
theorem rne24_mono : Monotone rne24 := by
  intro u v huv
  by_contra! hlt
  have hu : -(u - rne24 u) ≤ |u - rne24 v| :=
    (neg_le_abs _).trans (dist_rne24_le (has24Bits_rne24 v) u)
  have hv : v - rne24 v ≤ |v - rne24 u| :=
    (le_abs_self _).trans (dist_rne24_le (has24Bits_rne24 u) v)
  rw [le_abs] at hu hv
  exact hlt.ne (congrArg rne24 (by omega))

theorem dist_rne24_le_two_pow {v : ℤ} (h : 24 < bitLength v.natAbs) :
    |rne24 v - v| ≤ 2 ^ (bitLength v.natAbs - 25) := by
  have hdist := (rne24_nearestEvenMultiple v).two_mul_dist_le
  have hexp : bitLength v.natAbs - 24 = bitLength v.natAbs - 25 + 1 := by omega
  rw [hexp, pow_succ', abs_sub_comm] at hdist
  exact le_of_mul_le_mul_left hdist two_pos

/-- Settles O20: a tie leaves an even multiple, and `2^(L − 23)` divides it. -/
theorem rneIsNearestTiesToEven : Obligations.RneIsNearestTiesToEven := by
  refine ⟨fun v => ⟨has24Bits_rne24 v, fun u hu => dist_rne24_le hu v, fun u hu hne htie => ?_,
    rne24_eq_self, rne24_neg v, ?_⟩, fun _ _ h => rne24_mono h⟩ <;> rw [← bitLength_eq_size]
  · rcases dvd_or_dist_rne24_lt hu v with hd | hlt
    · have heven := (rne24_nearestEvenMultiple v).dvd_of_dist_eq hd hne htie
      have hexp : bitLength v.natAbs - 23 ≤ bitLength v.natAbs - 24 + 1 := by omega
      exact Nat.mod_eq_zero_of_dvd (two_pow_dvd_natAbs ((pow_dvd_pow 2 hexp).trans heven))
    · exact absurd htie hlt.ne'
  · exact dist_rne24_le_two_pow

end Sys2Proof.Machine

/-! PROOFS. The Fixed→Float Converter: the binary32 of a number with at most 24 significant bits
over a power of two is exact (O21), so `to_float` stays within the limits as `RNE24` does (O22) and
comes back through `to_fixed` as the rounded value (O23). -/

namespace Sys2Proof.Machine

/-! ### The significand (R113) -/

/-- The bits the significand drops are 0, and the ones it adds are scaled away again. -/
theorem significand_mul_zpow {r : ℤ} (hr : has24Bits r) (h0 : r ≠ 0) :
    (significand r.natAbs : ℚ) * 2 ^ ((bitLength r.natAbs : ℤ) - 24) = r.natAbs := by
  rw [significand]
  split_ifs with h24
  · have hexp : (bitLength r.natAbs : ℤ) - 24 = -((24 - bitLength r.natAbs : ℕ) : ℤ) := by omega
    rw [hexp, zpow_neg, zpow_natCast, Nat.cast_mul, Nat.cast_pow, Nat.cast_ofNat,
      mul_inv_cancel_right₀ (by positivity)]
  · have hexp : (bitLength r.natAbs : ℤ) - 24 = ((bitLength r.natAbs - 24 : ℕ) : ℤ) := by omega
    have hdvd := two_pow_dvd_natAbs
      (two_pow_dvd_of_has24Bits hr (two_pow_bitLength_le (Int.natAbs_ne_zero.2 h0)))
    rw [hexp, zpow_natCast]
    exact_mod_cast Nat.div_mul_cancel hdvd

theorem le_significand {a : ℕ} (h0 : a ≠ 0) : 2 ^ 23 ≤ significand a := by
  have hlow := two_pow_bitLength_le h0
  have hpos := bitLength_pos h0
  rw [significand]
  split_ifs with h24
  · calc 2 ^ 23 = 2 ^ (bitLength a - 1) * 2 ^ (24 - bitLength a) := by
          rw [← pow_add]; congr 1; omega
      _ ≤ a * 2 ^ (24 - bitLength a) := Nat.mul_le_mul_right _ hlow
  · rw [Nat.le_div_iff_mul_le (by positivity), ← pow_add]
    have hexp : 23 + (bitLength a - 24) = bitLength a - 1 := by omega
    rwa [hexp]

theorem bitLength_two_pow (k : ℕ) : bitLength (2 ^ k) = k + 1 := by
  rw [bitLength_eq_size, Nat.size_pow]

theorem significand_two_pow (k : ℕ) : significand (2 ^ k) = 2 ^ 23 := by
  rw [significand, bitLength_two_pow]
  split_ifs with h24
  · rw [← pow_add]
    congr 1
    omega
  · rw [Nat.pow_div (by omega) two_pos]
    congr 1
    omega

/-! ### The fields of an encoded value (R113) -/

theorem bitLength_le_of_le {a : ℕ} (h : a ≤ 2 ^ 63) : bitLength a ≤ 64 :=
  bitLength_le (h.trans_lt (by decide))

section Encoded
variable {r : ℤ} {n : ℕ} (h0 : r ≠ 0) (hr : r.natAbs ≤ 2 ^ 63) (hn : n ≤ 63)
include h0 hr hn

/-- Sign, exponent field and fraction side by side: no sum carries into the next field. -/
theorem encodeScaled_toNat : (encodeScaled r n).toNat =
    (decide (r < 0)).toNat * 2 ^ 31 + (bitLength r.natAbs + 126 - n) * 2 ^ 23 +
      (significand r.natAbs - 2 ^ 23) := by
  have hsig := significand_lt r.natAbs
  have hlen := bitLength_le_of_le hr
  rw [encodeScaled, if_neg h0]
  dsimp only
  rw [BitVec.toNat_ofNat]
  by_cases hneg : r < 0
  · rw [if_pos hneg, decide_eq_true hneg, Bool.toNat_true]; omega
  · rw [if_neg hneg, decide_eq_false hneg, Bool.toNat_false]; omega

theorem f32Exp_encodeScaled : f32Exp (encodeScaled r n) = bitLength r.natAbs + 126 - n := by
  have hsig := significand_lt r.natAbs
  have hlen := bitLength_le_of_le hr
  have hsign := (decide (r < 0)).toNat_lt
  rw [f32Exp_eq_toNat, encodeScaled_toNat h0 hr hn]
  omega

theorem f32Frac_encodeScaled : f32Frac (encodeScaled r n) = significand r.natAbs - 2 ^ 23 := by
  have hsig := significand_lt r.natAbs
  rw [f32Frac_eq_toNat, encodeScaled_toNat h0 hr hn]
  omega

theorem f32Sign_encodeScaled : f32Sign (encodeScaled r n) = decide (r < 0) := by
  have hsig := significand_lt r.natAbs
  have hlen := bitLength_le_of_le hr
  rw [f32Sign_eq_decide, encodeScaled_toNat h0 hr hn]
  by_cases hneg : r < 0
  · rw [decide_eq_true hneg, Bool.toNat_true]; exact decide_eq_true (by omega)
  · rw [decide_eq_false hneg, Bool.toNat_false]; exact decide_eq_false (by omega)

/-- The result is a normal number (R112). -/
theorem f32Exp_encodeScaled_bounds :
    64 ≤ f32Exp (encodeScaled r n) ∧ f32Exp (encodeScaled r n) ≤ 190 := by
  have hlen := bitLength_le_of_le hr
  have hpos := bitLength_pos (Int.natAbs_ne_zero.2 h0)
  rw [f32Exp_encodeScaled h0 hr hn]
  omega

/-- Encoding is exact: the exponent field undoes the shift of the significand and divides by
`2^n`. -/
theorem f32Rat_encodeScaled_of_ne_zero (h24 : has24Bits r) :
    f32Rat (encodeScaled r n) = r / 2 ^ n := by
  have hlen := bitLength_le_of_le hr
  have hpos := bitLength_pos (Int.natAbs_ne_zero.2 h0)
  have hsig : (2 ^ 23 + (significand r.natAbs - 2 ^ 23 : ℕ) : ℚ) = significand r.natAbs := by
    exact_mod_cast Nat.add_sub_cancel' (le_significand (Int.natAbs_ne_zero.2 h0))
  have hexp : ((bitLength r.natAbs + 126 - n : ℕ) : ℤ) - 150 =
      (bitLength r.natAbs : ℤ) - 24 - (n : ℕ) := by omega
  have hnormal : bitLength r.natAbs + 126 - n ≠ 0 := by omega
  have hsign : (if decide (r < 0) = true then (-1 : ℚ) else 1) * r.natAbs = r := by
    rw [Nat.cast_natAbs]
    by_cases hneg : r < 0
    · rw [if_pos (decide_eq_true hneg), abs_of_neg hneg, Int.cast_neg, neg_one_mul, neg_neg]
    · rw [if_neg (by simpa using hneg), abs_of_nonneg (not_lt.1 hneg), one_mul]
  rw [f32Rat, f32Sign_encodeScaled h0 hr hn, f32Exp_encodeScaled h0 hr hn,
    f32Frac_encodeScaled h0 hr hn, if_neg hnormal, hsig, hexp, zpow_sub₀ two_ne_zero, zpow_natCast,
    ← mul_div_assoc, significand_mul_zpow h24 h0, ← mul_div_assoc, hsign]

end Encoded

theorem encodeScaled_zero (n : ℕ) : encodeScaled 0 n = 0 := rfl

theorem f32Rat_encodeScaled {r : ℤ} {n : ℕ} (hr : r.natAbs ≤ 2 ^ 63) (hn : n ≤ 63)
    (h24 : has24Bits r) : f32Rat (encodeScaled r n) = r / 2 ^ n := by
  rcases eq_or_ne r 0 with rfl | h0
  · have hexp : f32Exp 0 = 0 := by decide
    have hfrac : f32Frac 0 = 0 := by decide
    rw [encodeScaled_zero, f32Rat, hexp, hfrac]
    simp
  · exact f32Rat_encodeScaled_of_ne_zero h0 hr hn h24

theorem encodeScaled_toNat_of_two_pow {r : ℤ} {k n : ℕ} (hr : r.natAbs = 2 ^ k) (hk : k ≤ 63)
    (hn : n ≤ k) : (encodeScaled r n).toNat =
      (decide (r < 0)).toNat * 2 ^ 31 + (k - n + 127) * 2 ^ 23 := by
  have h0 : r ≠ 0 := Int.natAbs_ne_zero.1 (by rw [hr]; positivity)
  rw [encodeScaled_toNat h0 (by rw [hr]; exact Nat.pow_le_pow_right two_pos hk) (hn.trans hk), hr,
    bitLength_two_pow, significand_two_pow]
  omega

/-! ### `to_float` of a value of the format (R112) -/

theorem frac_le (f : QFormat) : f.frac ≤ 63 := Nat.le_of_lt_succ f.n.isLt

theorem bits_sub_one_le (w : Width) : w.bits - 1 ≤ 63 := by cases w <;> decide

theorem natAbs_le_of_inWidth {w : Width} {v : ℤ} (h : inWidth w v) : v.natAbs ≤ 2 ^ 63 := by
  obtain ⟨hlo, hhi⟩ := h
  have hw := two_pow_bits_le w
  rw [fixedMin] at hlo
  rw [fixedMax] at hhi
  omega

/-- An operand register is read as an element of memory is (R23, R53). -/
theorem natAbs_fixOperand_le (w : Width) (x : Word) : (fixOperand w x).natAbs ≤ 2 ^ 63 := by
  have h := natAbs_sintOf_le w x.toNat
  rwa [sintOf, BitVec.ofNat_toNat] at h

section ToFloat
variable (f : QFormat) {v : ℤ} (hv : v.natAbs ≤ 2 ^ 63)
include hv

theorem f32Rat_toFloatBits : f32Rat (toFloatBits f v) = rne24 v / 2 ^ f.frac :=
  f32Rat_encodeScaled (natAbs_rne24_le hv) (frac_le f) (has24Bits_rne24 v)

theorem f32Exp_toFloatBits_bounds (h0 : rne24 v ≠ 0) :
    64 ≤ f32Exp (toFloatBits f v) ∧ f32Exp (toFloatBits f v) ≤ 190 :=
  f32Exp_encodeScaled_bounds h0 (natAbs_rne24_le hv) (frac_le f)

theorem f32Exp_toFloatBits_ne : f32Exp (toFloatBits f v) ≠ 255 := by
  have hmag := toFloatBits_magnitude_le f hv
  rw [f32Exp_eq_toNat]
  omega

end ToFloat

theorem toFloatBits_of_rne24_eq_zero (f : QFormat) {v : ℤ} (h : rne24 v = 0) :
    toFloatBits f v = 0 := by
  rw [toFloatBits, h, encodeScaled_zero]

/-! ### `RNE24` of a value of the format (R111, R114) -/

theorem rne24_fixedMin (w : Width) : rne24 (fixedMin w) = fixedMin w :=
  rne24_eq_self (has24Bits_neg_two_pow _)

theorem rne24_fixedMax_of_wide {w : Width} (h : w = .w32 ∨ w = .w64) :
    rne24 (fixedMax w) = fixedMax w + 1 := by
  rcases h with rfl | rfl <;> decide +kernel

theorem rne24_of_narrow {w : Width} {v : ℤ} (h : w = .w8 ∨ w = .w16) (hv : inWidth w v) :
    rne24 v = v := by
  have hw : (2 : ℤ) ^ (w.bits - 1) ≤ 2 ^ 15 := by rcases h with rfl | rfl <;> decide
  obtain ⟨hlo, hhi⟩ := hv
  rw [fixedMin] at hlo
  rw [fixedMax] at hhi
  exact rne24_eq_self (has24Bits_of_lt (by omega))

/-- Rounding stays between the limits of the width, which have one significant bit: it may reach
`2^(W − 1)`, one above `fixed_max`. -/
theorem rne24_bounds {w : Width} {v : ℤ} (hv : inWidth w v) :
    fixedMin w ≤ rne24 v ∧ rne24 v ≤ fixedMax w + 1 := by
  obtain ⟨hlo, hhi⟩ := hv
  have hmax : rne24 (fixedMax w + 1) = fixedMax w + 1 := by
    rw [fixedMax, Int.sub_add_cancel]
    exact rne24_eq_self (has24Bits_two_pow _)
  exact ⟨rne24_fixedMin w ▸ rne24_mono hlo, hmax ▸ rne24_mono (Int.le_add_one hhi)⟩

/-! ### Both ends (R114) -/

theorem toFloatBits_fixedMin {f : QFormat} (hf : f.valid = true) :
    toFloatBits f (fixedMin f.w) = floatMinBits f := by
  have hn := f.valid_iff.1 hf
  have hneg : fixedMin f.w < 0 := neg_neg_of_pos (by positivity)
  refine BitVec.eq_of_toNat_eq ?_
  rw [toFloatBits, rne24_fixedMin, floatMinBits_toNat, limitExp, QFormat.bits,
    encodeScaled_toNat_of_two_pow (by rw [fixedMin, Int.natAbs_neg, Int.natAbs_pow]; rfl)
      (bits_sub_one_le f.w) hn,
    decide_eq_true hneg, Bool.toNat_true]
  rfl

theorem toFloatBits_fixedMax_of_wide {f : QFormat} (hf : f.valid = true)
    (h : f.w = .w32 ∨ f.w = .w64) : toFloatBits f (fixedMax f.w) = floatMaxBits f := by
  have hn := f.valid_iff.1 hf
  have hmax : fixedMax f.w + 1 = 2 ^ (f.w.bits - 1) := Int.sub_add_cancel _ _
  have hpos : ¬ (2 : ℤ) ^ (f.w.bits - 1) < 0 := not_lt.2 (by positivity)
  refine BitVec.eq_of_toNat_eq ?_
  rw [toFloatBits, rne24_fixedMax_of_wide h, hmax, floatMaxBits_toNat, limitExp, QFormat.bits,
    encodeScaled_toNat_of_two_pow (by rw [Int.natAbs_pow]; rfl)
      (bits_sub_one_le f.w) hn,
    decide_eq_false hpos, Bool.toNat_false, zero_mul, zero_add]

/-! ### The round trip (R115) -/

/-- The product by `2^N` gives back the rounded value, and only `fixed_max` can cut it off. -/
theorem toFixed_toFloatBits {f : QFormat} (hf : f.valid = true) {v : ℤ} (hv : inWidth f.w v) :
    toFixed f (toFloatBits f v) = min (rne24 v) (fixedMax f.w) := by
  have habs := natAbs_le_of_inWidth hv
  rw [toFixed_eq_clamp hf (f32Exp_toFloatBits_ne f habs), f32Rat_toFloatBits f habs,
    div_mul_cancel₀ _ (by positivity), truncRat_intCast, min_comm,
    max_eq_right (le_min (rne24_bounds hv).1 (fixedMin_le_fixedMax f.w))]

/-- The value comes back if `RNE24` keeps it or moves it beyond `fixed_max` from `fixed_max`. -/
theorem min_rne24_eq_self_iff {w : Width} {v : ℤ} (hv : inWidth w v) :
    min (rne24 v) (fixedMax w) = v ↔
      rne24 v = v ∨ (v = fixedMax w ∧ (w = .w32 ∨ w = .w64)) := by
  have hhi : v ≤ fixedMax w := hv.2
  constructor
  · intro h
    by_cases hr : rne24 v = v
    · exact .inl hr
    · refine .inr ⟨by omega, ?_⟩
      cases w with
      | w8 => exact absurd (rne24_of_narrow (.inl rfl) hv) hr
      | w16 => exact absurd (rne24_of_narrow (.inr rfl) hv) hr
      | w32 => exact .inl rfl
      | w64 => exact .inr rfl
  · rintro (hr | ⟨rfl, hw⟩)
    · rw [hr, min_eq_left hhi]
    · rw [rne24_fixedMax_of_wide hw, min_eq_right (Int.le_add_one le_rfl)]

/-! ### The statements -/

/-- Settles O21 with the model's own bits: `RNE24(v)` has at most 24 significant bits, so encoding
it is exact. -/
theorem tofltDividesTheRoundedValue : Obligations.TofltDividesTheRoundedValue := by
  intro f rd rs1 s hf
  refine ⟨toFloatBits f (fixOperand f.w (s.getReg rs1)), rfl, Laws.EncodeRow.toflt f rd rs1,
    decode_encode_of_wf hf, ?_⟩
  rintro v rfl
  have hv := natAbs_fixOperand_le f.w (s.getReg rs1)
  exact ⟨f32Rat_toFloatBits f hv, toFloatBits_of_rne24_eq_zero f, f32Exp_toFloatBits_bounds f hv⟩

/-- Settles O22: scaled by `2^N`, the float limits are `fixed_min` and `fixed_max + 1`. -/
theorem toFloatStaysWithinFloatLimits : Obligations.ToFloatStaysWithinFloatLimits := by
  intro f hf
  have hscale : (0 : ℚ) < 2 ^ f.frac := by positivity
  refine ⟨fun v hv => ?_, toFloatBits_fixedMin hf, toFloatBits_fixedMax_of_wide hf, fun h => ?_,
    toFloatBits_of_rne24_eq_zero f rfl⟩
  · obtain ⟨hlo, hhi⟩ := rne24_bounds hv
    rw [f32Rat_toFloatBits f (natAbs_le_of_inWidth hv), f32Rat_floatMinBits, f32Rat_floatMaxBits,
      le_div_iff₀ hscale, div_le_iff₀ hscale, floatMin_mul_scale hf, floatMax_mul_scale hf]
    exact ⟨Int.cast_le.2 hlo, Int.cast_le.2 hhi⟩
  · have hmax := inWidth_fixedMax f.w
    rw [f32Rat_toFloatBits f (natAbs_le_of_inWidth hmax), rne24_of_narrow h hmax, fixedMax]
    norm_cast

/-- Settles O23: both converters scale by the same `2^N`. -/
theorem roundTripReturnsRoundedValue : Obligations.RoundTripReturnsRoundedValue := by
  intro f v hf hv
  rw [toFixed_toFloatBits hf hv, f32Rat_toFloatBits f (natAbs_le_of_inWidth hv)]
  refine ⟨rfl, min_rne24_eq_self_iff hv, fun h => ?_, ?_⟩
  · exact (min_rne24_eq_self_iff hv).2 (.inl (rne24_of_narrow h hv))
  · have hscale : (0 : ℚ) < 2 ^ f.frac := by positivity
    change |(rne24 v : ℚ) / 2 ^ f.frac - v / 2 ^ f.frac| = |(rne24 v : ℚ) - v| / 2 ^ f.frac
    rw [← sub_div, abs_div, abs_of_pos hscale]

end Sys2Proof.Machine

/-! PROOFS. The text functions of the renderer: the decimal numeral and padding (O24), the value
(O25), the name and the tag field (O26, O27) and the bytes of the lines (O28). -/

namespace Sys2Proof.Machine

/-! ### The decimal numeral (R121) -/

theorem decDigits_of_lt (fuel : ℕ) {u : ℕ} (h : u < 10) : decDigits (fuel + 1) u = [u] := if_pos h

theorem decDigits_of_ge (fuel : ℕ) {u : ℕ} (h : 10 ≤ u) :
    decDigits (fuel + 1) u = decDigits fuel (u / 10) ++ [u % 10] := if_neg h.not_gt

/-- A number of `fuel` bits has no more decimal digits than that, so the fuel never runs out. -/
theorem decDigits_eq_reverse_digits {fuel u : ℕ} (h0 : u ≠ 0) (hu : u < 2 ^ fuel) :
    decDigits fuel u = (Nat.digits 10 u).reverse := by
  induction fuel generalizing u with
  | zero => exact absurd (Nat.lt_one_iff.1 hu) h0
  | succ fuel ih =>
    rcases lt_or_ge u 10 with hlt | hge
    · rw [decDigits_of_lt fuel hlt, Nat.digits_of_lt 10 u h0 hlt, List.reverse_singleton]
    · have hdiv : u / 10 < 2 ^ fuel := by omega
      rw [decDigits_of_ge fuel hge, ih (by omega) hdiv,
        Nat.digits_def' (by decide) (Nat.pos_of_ne_zero h0), List.reverse_cons]

theorem decU_zero : decU 0 = [chDigit 0] := by decide

theorem decU_of_ne_zero {u : ℕ} (h0 : u ≠ 0) :
    decU u = (Nat.digits 10 u).reverse.map chDigit := by
  rw [decU, decDigits_eq_reverse_digits h0 Nat.lt_log2_self]

/-- Settles O24. -/
theorem decimalNumeralIsExact : Obligations.DecimalNumeralIsExact := by
  refine ⟨fun u => ?_, fun l c h => ⟨rfl, padLeft_length h, rfl, padRight_length h⟩⟩
  split_ifs with h0
  · rw [h0]
    exact decU_zero
  · exact decU_of_ne_zero h0

/-! ### The tag field (R123) -/

theorem decU_of_lt_ten {u : ℕ} (h : u < 10) : decU u = [chDigit u] := by
  rw [decU, decDigits_of_lt _ h, List.map_singleton]

theorem decU_of_two_digits {u : ℕ} (h10 : 10 ≤ u) (h100 : u < 100) :
    decU u = [chDigit (u / 10), chDigit (u % 10)] := by
  have hten : u / 10 < 10 := by omega
  rw [decU_of_ne_zero (by omega), Nat.digits_def' (by decide) (by omega),
    Nat.digits_of_lt 10 (u / 10) (by omega) hten]
  rfl

/-- Settles O27: `Q` and one digit leave one column of the three for a space, and two digits none. -/
theorem tagFieldShowsFractionalBits : Obligations.TagFieldShowsFractionalBits := by
  refine fun n => ⟨fun h10 => ?_, fun h10 h63 => ?_⟩
  · rw [tagField, decU_of_lt_ten h10]
    rfl
  · rw [tagField, decU_of_two_digits h10 (by omega)]
    rfl

/-! ### The name field (R122) -/

/-- Byte `k` of `NAME`, which is `NAME1` over `NAME0` (R26). -/
def nameByte (name0 name1 : Word) (k : ℕ) : Byte := (name1 ++ name0).extractLsb' (8 * k) 8

theorem wordBytes_append (name0 name1 : Word) :
    wordBytes name0 ++ wordBytes name1 = (List.range 16).map (nameByte name0 name1) := by
  have hlow : ∀ k < 8, name0.extractLsb' (8 * k) 8 = nameByte name0 name1 k := fun k hk =>
    (BitVec.extractLsb'_append_eq_of_add_le (by omega)).symm
  have hhigh : ∀ k, name1.extractLsb' (8 * k) 8 = nameByte name0 name1 (8 + k) := fun k => by
    rw [nameByte, BitVec.extractLsb'_append_eq_of_le (by omega)]
    congr 1
    omega
  rw [List.range_add (n := 8) (m := 8), List.map_append, List.map_map]
  refine congrArg₂ _ (List.map_congr_left fun k hk => hlow k (List.mem_range.1 hk))
    (List.map_congr_left fun k _ => hhigh k)

/-- The place of the first zero byte of `NAME`, or 16 if there is none. -/
def nameLength (name0 name1 : Word) : ℕ :=
  (List.range 16).findIdx fun k => nameByte name0 name1 k == 0

theorem nameLength_le (name0 name1 : Word) : nameLength name0 name1 ≤ 16 :=
  List.findIdx_le_length.trans_eq List.length_range

theorem nameByte_ne_zero {name0 name1 : Word} {k : ℕ} (hk : k < nameLength name0 name1) :
    nameByte name0 name1 k ≠ 0 := by
  simpa using List.not_of_lt_findIdx hk

theorem nameByte_nameLength {name0 name1 : Word} (h : nameLength name0 name1 < 16) :
    nameByte name0 name1 (nameLength name0 name1) = 0 := by
  rw [nameLength] at h ⊢
  simpa using List.findIdx_getElem (w := h.trans_eq List.length_range.symm)

theorem nameString_eq_map (name0 name1 : Word) : nameString name0 name1 =
    (List.range (nameLength name0 name1)).map (nameByte name0 name1) := by
  rw [nameString, wordBytes_append, List.takeWhile_map, List.takeWhile_eq_take_findIdx_not]
  simp only [Function.comp_apply, bne, Bool.not_not]
  rw [← nameLength, List.take_range, min_eq_left (nameLength_le name0 name1)]

theorem nameField_eq (name0 name1 : Word) : nameField name0 name1 =
    (List.range (nameLength name0 name1)).map (nameByte name0 name1) ++
      List.replicate (16 - nameLength name0 name1) chSpace := by
  rw [nameField, padRight, nameString_eq_map, List.length_map, List.length_range]
  rfl

/-- Settles O26, with the bytes before the first zero byte and the columns after them. -/
theorem nameFieldIsTheNameString : Obligations.NameFieldIsTheNameString := by
  intro name0 name1
  refine ⟨nameField_length name0 name1, nameLength name0 name1, nameLength_le name0 name1,
    fun k hk => ⟨nameByte_ne_zero hk, ?_⟩, nameByte_nameLength, fun k hk h16 => ?_⟩
  · rw [nameField_eq, List.getElem?_append_left (by simpa using hk)]
    simp [hk, nameByte]
  · rw [nameField_eq, List.getElem?_append_right (by simpa using hk),
      List.getElem?_replicate_of_lt (by simp; omega)]
    rfl

/-! ### The value (R124) -/

/-- Rounding to the nearest multiple of `2^(k + 1)`, ties to even, on the quotient. -/
theorem divNearestEven_nearestEvenMultiple (a k : ℕ) :
    NearestEvenMultiple (k + 1) a ↑(divNearestEven a (2 ^ (k + 1)) * 2 ^ (k + 1)) := by
  have hrem : a % 2 ^ (k + 1) < 2 ^ (k + 1) := Nat.mod_lt _ (by positivity)
  have hdiv : a / 2 ^ (k + 1) * 2 ^ (k + 1) + a % 2 ^ (k + 1) = a := Nat.div_add_mod' a _
  rw [divNearestEven]
  generalize a / 2 ^ (k + 1) = q at hdiv ⊢
  generalize a % 2 ^ (k + 1) = rem at hdiv hrem ⊢
  split_ifs with hup
  · have hnext : (q + 1) * 2 ^ (k + 1) = q * 2 ^ (k + 1) + 2 ^ (k + 1) := Nat.succ_mul q _
    exact nearestEvenMultiple_of_dist (d := 2 ^ (k + 1) - rem) (.inr (by omega))
      (by omega) (by omega)
  · exact nearestEvenMultiple_of_dist (d := rem) (.inl hdiv.symm) (by omega) (by omega)

/-- The distance of a quotient by `2^k` from a natural number, as one of multiples of `2^k`. -/
theorem abs_div_two_pow_sub (a k p : ℕ) :
    |(a : ℚ) / 2 ^ k - p| = (|(a : ℤ) - ↑(p * 2 ^ k)| : ℤ) / 2 ^ k := by
  have hk : (0 : ℚ) < 2 ^ k := by positivity
  rw [eq_div_iff hk.ne', ← abs_of_pos hk, ← abs_mul, sub_mul, abs_of_pos hk,
    div_mul_cancel₀ _ hk.ne']
  push_cast
  rfl

theorem dist_divNearestEven_le (a k p : ℕ) :
    |(a : ℚ) / 2 ^ (k + 1) - divNearestEven a (2 ^ (k + 1))| ≤ |(a : ℚ) / 2 ^ (k + 1) - p| := by
  have hdist := (divNearestEven_nearestEvenMultiple a k).dist_le
    (z := ↑(p * 2 ^ (k + 1))) (by exact_mod_cast Dvd.intro_left p rfl)
  rw [abs_div_two_pow_sub, abs_div_two_pow_sub]
  gcongr

theorem even_divNearestEven_of_tie {a k : ℕ}
    (h : |(a : ℚ) / 2 ^ (k + 1) - divNearestEven a (2 ^ (k + 1))| = 1 / 2) :
    divNearestEven a (2 ^ (k + 1)) % 2 = 0 := by
  have hpos : (0 : ℚ) < 2 ^ (k + 1) := by positivity
  rw [abs_div_two_pow_sub, div_eq_iff hpos.ne'] at h
  have htie : 2 * |(a : ℤ) - ↑(divNearestEven a (2 ^ (k + 1)) * 2 ^ (k + 1))| = 2 ^ (k + 1) := by
    have hrat := (congrArg (2 * ·) h).trans (by ring : _ = (2 : ℚ) ^ (k + 1))
    exact_mod_cast hrat
  have hdvd : 2 * 2 ^ (k + 1) ∣ divNearestEven a (2 ^ (k + 1)) * 2 ^ (k + 1) := by
    have := (divNearestEven_nearestEvenMultiple a k).even_of_tie htie
    rw [pow_succ'] at this
    exact_mod_cast this
  exact Nat.mod_eq_zero_of_dvd (Nat.dvd_of_mul_dvd_mul_right (by positivity) hdvd)

theorem fixedDigits_lt_ten {k u d : ℕ} (h : d ∈ fixedDigits k u) : d < 10 := by
  induction k generalizing u with
  | zero => cases h
  | succ k ih =>
    rcases List.mem_append.1 h with h | h
    · exact ih h
    · rw [List.mem_singleton.1 h]
      exact Nat.mod_lt _ (by decide)

/-- The `k` digits are those of `u` modulo `10^k`. -/
theorem ofDigits_reverse_fixedDigits (k u : ℕ) :
    Nat.ofDigits 10 (fixedDigits k u).reverse = u % 10 ^ k := by
  induction k generalizing u with
  | zero => exact (Nat.mod_one u).symm
  | succ k ih =>
    rw [fixedDigits, List.reverse_concat, Nat.ofDigits_cons, ih, pow_succ', Nat.mod_mul]

/-- The quotient `Dec21` prints, in units of `10^(−21)`. -/
def dec21Quotient (v : ℤ) : ℕ := divNearestEven (v.natAbs * 10 ^ 21) (2 ^ 149)

theorem dec21_eq (v : ℤ) : dec21 v =
    (if v < 0 then [chMinus] else []) ++ decU (dec21Quotient v / 10 ^ 21) ++ [chDot] ++
      (fixedDigits 21 (dec21Quotient v % 10 ^ 21)).map chDigit := rfl

/-- Settles O25: both the exact value and the quotient count units of `2^(−149)`. -/
theorem valueTextIsNearestDecimal : Obligations.ValueTextIsNearestDecimal := by
  intro b hb
  obtain ⟨v, hv, hrat⟩ := f32Value_of_finite hb
  have hscaled : |f32Rat b| * 10 ^ 21 = (v.natAbs * 10 ^ 21 : ℕ) / 2 ^ (148 + 1) := by
    rw [hrat, abs_div, abs_of_pos (by positivity : (0 : ℚ) < 2 ^ 149), div_mul_eq_mul_div]
    push_cast [Nat.cast_natAbs]
    rfl
  have hneg : f32Rat b < 0 ↔ v < 0 := by
    rw [hrat, div_lt_iff₀ (by positivity), zero_mul, Int.cast_lt_zero]
  refine ⟨dec21Quotient v, fixedDigits 21 (dec21Quotient v % 10 ^ 21), fun p => ?_, fun h => ?_,
    fixedDigits_length _ _, fun d hd => fixedDigits_lt_ten hd, ?_, ?_⟩
  · rw [hscaled]
    exact dist_divNearestEven_le (v.natAbs * 10 ^ 21) 148 p
  · rw [hscaled] at h
    exact even_divNearestEven_of_tie h
  · rw [ofDigits_reverse_fixedDigits, Nat.mod_mod]
  · simp only [dec21Bits, hv, dec21_eq, hneg]
    rfl

/-! ### The lines (R126, R127) -/

theorem valueLine_length (f : QFormat) (name0 name1 : Word) {v : ℤ} (h : v.natAbs ≤ 2 ^ 63) :
    (valueLine f name0 name1 v).length = 66 := by
  have hvalue : (valueField (toFloatBits f v)).length = 42 :=
    padLeft_length (dec21Bits_toFloatBits_length_le f h)
  simp [valueLine, nameField_length, tagField_length f.n.isLt, hvalue, QFormat.frac]

/-- Settles O28, with the widths of the fields. -/
theorem linesHaveFixedLength : Obligations.LinesHaveFixedLength := by
  refine ⟨fun f name0 name1 i v _ hv => ?_, fun _ _ _ _ _ => rfl, rfl⟩
  have habs := natAbs_le_of_inWidth hv
  exact ⟨valueLine_length f name0 name1 habs, List.getLast?_concat,
    elementLine_length f name0 name1 i habs, List.getLast?_concat, rfl, rfl,
    dec21Bits_toFloatBits_length_le f habs,
    decU_length_le (by decide) (i.isLt.trans (by decide))⟩

end Sys2Proof.Machine

/-! PROOFS. What the render commands emit: the whole line of `RVAL` (O29), the whole lines before the
fault of `RRNG` (O33), and that the text of a command depends on its inputs only (O35). -/

namespace Sys2Proof.Machine

/-! ### The line of `RVAL` (R128) -/

theorem valueLine_ne_nil (f : QFormat) (name0 name1 : Word) (v : ℤ) :
    valueLine f name0 name1 v ≠ [] := by
  simp [valueLine]

/-- Settles O29: the line is the last text of the command. -/
theorem rvalEmitsItsLine : Obligations.RvalEmitsItsLine := by
  rintro f rs1 s _ hf hs rfl
  refine ⟨_, rfl, rfl, ?_, Laws.EncodeRow.rval f rs1, decode_encode_of_wf hf⟩
  have hlen := valueLine_length f s.name0 s.name1 (natAbs_fixOperand_le f.w (s.getReg rs1))
  have hrun := runSteps_finalText
    (s := s.startText (valueLine f s.name0 s.name1 (fixOperand f.w (s.getReg rs1))) .finalText)
    hs rfl (valueLine_ne_nil _ _ _ _)
  rwa [State.startText_txq, hlen] at hrun

/-! ### The lines before a fault (R130, R150) -/

/-- `s` once `k` elements from `IDX` on have been read and their lines, `text`, handed over. -/
def State.afterLines (s : State) (k : ℕ) (text : List Byte) : State :=
  { s with
    idx := s.idx + BitVec.ofNat 64 k
    txt := s.txt ++ text
    reads := s.reads ++ rangeReads s.fmt.w s.base k s.idx }

theorem State.afterLines_zero (s : State) : s.afterLines 0 [] = s := by
  simp only [State.afterLines, rangeReads, List.append_nil, BitVec.add_zero]

/-- One line and `k` more are `k + 1` lines. -/
theorem State.afterLines_succ {s : State} (hr : s.run = .busy .elementRange) (hq : s.txq = [])
    (v : ℤ) (k : ℕ) (rest : List Byte) : (s.lineEmitted v).nextIndex.afterLines k rest =
      s.afterLines (k + 1) (elementLine s.fmt s.name0 s.name1 s.idx v ++ rest) := by
  have hidx : s.idx + 1#64 + BitVec.ofNat 64 k = s.idx + BitVec.ofNat 64 (k + 1) := by
    rw [BitVec.add_assoc, BitVec.add_comm 1#64, BitVec.ofNat_add]
  simp [State.afterLines, State.lineEmitted, State.nextIndex, State.logRead, rangeReads_succ, hidx,
    hq, hr]

/-- From an element step at least `k` indices below `STOP`, `RRNG` hands over the lines of the next
`k` elements and is at the element step of the one after them. -/
theorem runSteps_wholeLines {s : State} {k : ℕ} {text : List Byte} (hs : s.sched = [])
    (hr : s.run = .busy .elementRange) (hq : s.txq = []) (hk : s.idx.toNat + k ≤ s.stop.toNat)
    (ht : rangeText s s.fmt s.base k s.idx = some text) :
    runSteps (90 * k) s = .next (s.afterLines k text) := by
  induction k generalizing s text with
  | zero =>
    obtain rfl := Option.some.inj ht
    rw [s.afterLines_zero]
    rfl
  | succ k ih =>
    obtain ⟨v, rest, hv, hrest, rfl⟩ := rangeText_succ_eq_some ht
    have hne : s.idx ≠ s.stop := fun he => by
      rw [he] at hk
      omega
    have hnext : (s.idx + 1).toNat + k ≤ s.stop.toNat := by bv_omega
    have hrun := ih (s := (s.lineEmitted v).nextIndex) hs rfl rfl hnext
      (rangeText_eq_some_of_same hrest rfl rfl rfl)
    rw [Nat.mul_succ, Nat.add_comm, runSteps_add _ (runSteps_rangeLine_of_ne hs hr hv hne), hrun,
      State.afterLines_succ hr hq]

/-- An element is requested exactly if it is aligned and in range, whatever its bytes (R148). -/
theorem elementStep_reads_eq (s : State) (p : Phase) : (elementStep s p).reads = s.reads ++
    if elementAddr s.base s.idx s.fmt.w % s.fmt.w.bytes = 0 ∧
        elementAddr s.base s.idx s.fmt.w + s.fmt.w.bytes ≤ 2 ^ 64
      then [⟨elementAddr s.base s.idx s.fmt.w, s.fmt.w.bytes⟩] else [] := by
  split_ifs with h
  · exact elementStep_reads_of_aligned h.1 h.2 p
  · rw [List.append_nil]
    exact (elementStep_reads s p).resolve_right fun hreq => h ⟨hreq.aligned, hreq.inRange⟩

/-- An element that cannot be read raises one of the two access causes, which record an address. -/
theorem faultAddr_of_elementAt_error {mem : List Host.Cell} {w : Width} {base idx : Word}
    {c : FaultCause} (h : elementAt mem w base idx = .error c) (a : Word) : faultAddr c a = a := by
  unfold elementAt at h
  split_ifs at h
  · exact Except.error.inj h ▸ rfl
  · exact Except.error.inj h ▸ rfl
  · split at h
    · exact Except.error.inj h ▸ rfl
    · cases h

/-- The record of R149 for the element of `s`, the text port untouched. -/
theorem elementStep_record {s : State} {c : FaultCause} (p : Phase)
    (h : elementAt s.mem s.fmt.w s.base s.idx = .error c) :
    (elementStep s p).txq = s.txq ∧ (elementStep s p).run = .faulted ∧
      (elementStep s p).cause = faultCode c ∧ (elementStep s p).finfo = s.cmd.setWidth 64 ∧
      (elementStep s p).faddr = BitVec.ofNat 64 (elementAddr s.base s.idx s.fmt.w) := by
  have haddr := faultAddr_of_elementAt_error h
  rcases elementStep_error p h with hs | hs <;> rw [hs] <;>
    exact ⟨rfl, rfl, rfl, rfl, haddr _⟩

/-- Up to `STOP` the index does not wrap. -/
theorem elementAddr_add {start stop : Word} {k : ℕ} (h : start.toNat + k ≤ stop.toNat) (base : Word)
    (w : Width) : elementAddr base (start + BitVec.ofNat 64 k) w =
      base.toNat + (start.toNat + k) * (w.bits / 8) := by
  have hidx : (start + BitVec.ofNat 64 k).toNat = start.toNat + k := by bv_omega
  rw [elementAddr, hidx, Width.bytes]

theorem step_of_elementRange {s : State} (hs : s.sched = []) (hr : s.run = .busy .elementRange) :
    step s = .next (elementStep s .rangeLine) :=
  (step_of_busy hs hr).trans (congrArg _ (coreStep_elementRange hr))

/-- Settles O33: the run over the lines before the element, then its element step. -/
theorem rrngFaultLeavesWholeLines : Obligations.RrngFaultLeavesWholeLines := by
  rintro f rs1 rs2 rs3 s k _ text c - hs hq hk rfl ht hc
  let accepted := s.loadRange f (s.x.get rs1) (s.x.get rs2) (s.x.get rs3)
  have hlines : runSteps (90 * k) accepted = .next (accepted.afterLines k text) :=
    runSteps_wholeLines hs rfl hq hk (rangeText_eq_some_of_same ht rfl rfl rfl)
  have hstep := step_of_elementRange (s := accepted.afterLines k text) hs rfl
  obtain ⟨htxq, hrun, hcause, hfinfo, hfaddr⟩ :=
    elementStep_record (s := accepted.afterLines k text) .rangeLine hc
  obtain ⟨hx, h0, h1, -, -, -, -⟩ := elementStep_sameOperands (accepted.afterLines k text) .rangeLine
  have hreads := elementStep_reads_eq (accepted.afterLines k text) .rangeLine
  rw [← elementAddr_add hk (s.x.get rs1) f.w]
  exact ⟨accepted, _, exec_rrng_of_le (Nat.le_of_add_right_le hk),
    (runSteps_add 1 hlines).trans (runSteps_succ 0 hstep), elementStep_txt _ _, htxq.trans hq, hrun,
    hcause, hfinfo, hfaddr, hreads, hx, h0, h1, elementStep_mem _ _⟩

/-! ### Two runs on the same inputs (R132) -/

theorem memRead_congr {m m' : List Host.Cell} {addr n : ℕ}
    (h : ∀ k < n, memByte m (addr + k) = memByte m' (addr + k)) :
    memRead m addr n = memRead m' addr n := by
  induction n generalizing addr with
  | zero => rfl
  | succ n ih =>
    have hhead : memByte m addr = memByte m' addr := h 0 n.succ_pos
    have htail : memRead m (addr + 1) n = memRead m' (addr + 1) n := ih fun k hk => by
      rw [Nat.add_right_comm]
      exact h (k + 1) (Nat.succ_lt_succ hk)
    rw [memRead, memRead, hhead, htail]

/-- An element, or the fault in its place, depends on its own bytes only (R51). -/
theorem elementAt_congr {m m' : List Host.Cell} {w : Width} {base idx : Word}
    (h : ∀ k < w.bytes,
      memByte m (elementAddr base idx w + k) = memByte m' (elementAddr base idx w + k)) :
    elementAt m w base idx = elementAt m' w base idx := by
  rw [elementAt, elementAt, memRead_congr h]

/-- Two states whose next element lines are equal, or whose next element steps fault alike. -/
structure State.SameElement (s t : State) : Prop where
  name0 : s.name0 = t.name0
  name1 : s.name1 = t.name1
  fmt : s.fmt = t.fmt
  idx : s.idx = t.idx
  element : elementAt s.mem s.fmt.w s.base s.idx = elementAt t.mem t.fmt.w t.base t.idx

/-- Two states with the same range left to render, from `IDX` to `STOP`. -/
structure State.SameRange (s t : State) : Prop where
  name0 : s.name0 = t.name0
  name1 : s.name1 = t.name1
  fmt : s.fmt = t.fmt
  idx : s.idx = t.idx
  stop : s.stop = t.stop
  idx_le_stop : s.idx.toNat ≤ s.stop.toNat
  elements : ∀ j : Word, s.idx.toNat ≤ j.toNat → j.toNat ≤ s.stop.toNat →
    elementAt s.mem s.fmt.w s.base j = elementAt t.mem t.fmt.w t.base j

/-- Two states that hand over bytes and go on alike after the last of them. -/
inductive State.SameEmission (s t : State) : Prop
  | rangeLine (hs : s.run = .busy .rangeLine) (ht : t.run = .busy .rangeLine) (h : s.SameRange t)
  | finalText (hs : s.run = .busy .finalText) (ht : t.run = .busy .finalText)

/-- Two states at the same point of commands that have the same text left to emit. -/
inductive State.SamePhase (s t : State) : Prop
  | resting (hs : ∀ p, s.run ≠ .busy p) (ht : ∀ p, t.run ≠ .busy p)
  | elementOne (hs : s.run = .busy .elementOne) (ht : t.run = .busy .elementOne)
      (h : s.SameElement t)
  | elementRange (hs : s.run = .busy .elementRange) (ht : t.run = .busy .elementRange)
      (h : s.SameRange t)
  | emitting (hq : s.txq = t.txq) (h : s.SameEmission t)

section SamePhase
variable {s t : State}

theorem State.SamePhase.of_faulted (hs : s.run = .faulted) (ht : t.run = .faulted) :
    s.SamePhase t :=
  .resting (by simp [hs]) (by simp [ht])

theorem State.SameRange.sameElement (h : s.SameRange t) : s.SameElement t :=
  ⟨h.name0, h.name1, h.fmt, h.idx, by rw [h.elements _ le_rfl h.idx_le_stop, h.idx]⟩

/-- Below `STOP` the range left shrinks by its first index. -/
theorem State.SameRange.nextIndex (h : s.SameRange t) (hne : s.idx ≠ s.stop) :
    s.nextIndex.SameRange t.nextIndex := by
  have hle := h.idx_le_stop
  have hnext : (s.idx + 1).toNat = s.idx.toNat + 1 := by bv_omega
  have hbelow : s.idx.toNat < s.stop.toNat := by bv_omega
  refine ⟨h.name0, h.name1, h.fmt, congrArg (· + 1) h.idx, h.stop, ?_, fun j hj hj' => ?_⟩
  · exact hnext.trans_le hbelow
  · exact h.elements j (Nat.le_of_succ_le (hnext.symm.trans_le hj)) hj'

/-- The element steps of such states fault both, or queue the same line. -/
theorem State.SameElement.elementStep (h : s.SameElement t) (p : Phase) :
    ((elementStep s p).run = .faulted ∧ (elementStep t p).run = .faulted) ∨
    ∃ line,
      elementStep s p =
        (s.logRead (elementAddr s.base s.idx s.fmt.w) s.fmt.w.bytes).startText line p ∧
      elementStep t p =
        (t.logRead (elementAddr t.base t.idx t.fmt.w) t.fmt.w.bytes).startText line p := by
  obtain ⟨h0, h1, hf, hi, he⟩ := h
  cases hv : elementAt s.mem s.fmt.w s.base s.idx with
  | error c =>
    obtain ⟨-, hs, -⟩ := elementStep_record p hv
    obtain ⟨-, ht, -⟩ := elementStep_record p (he.symm.trans hv)
    exact .inl ⟨hs, ht⟩
  | ok v =>
    refine .inr ⟨_, elementStep_ok p hv, ?_⟩
    rw [elementStep_ok p (he.symm.trans hv), h0, h1, hf, hi]

theorem State.SameEmission.handByte (h : s.SameEmission t) (b : Byte) (l : List Byte) :
    (s.handByte b l).SameEmission (t.handByte b l) := by
  cases h with
  | rangeLine hs ht h =>
    obtain ⟨h0, h1, hf, hi, hst, hle, hel⟩ := h
    exact .rangeLine hs ht ⟨h0, h1, hf, hi, hst, hle, hel⟩
  | finalText hs ht => exact .finalText hs ht

/-- After the last byte: the terminator, the next element or the end, in both. -/
theorem State.SameEmission.textDone (h : s.SameEmission t) :
    (textDone s).SamePhase (textDone t) := by
  cases h with
  | finalText hs ht =>
    rw [textDone_final hs, textDone_final ht]
    exact .resting nofun nofun
  | rangeLine hs ht h =>
    by_cases hend : s.idx = s.stop
    · rw [textDone_range_end hs hend, textDone_range_end ht (by rw [← h.idx, ← h.stop, hend])]
      exact .emitting rfl (.finalText rfl rfl)
    · rw [textDone_range_next hs hend, textDone_range_next ht (by rwa [← h.idx, ← h.stop])]
      exact .elementRange rfl rfl (h.nextIndex hend)

theorem State.SameEmission.coreStep_eq (h : s.SameEmission t) :
    coreStep s = handOver s ∧ coreStep t = handOver t := by
  cases h with
  | rangeLine hs ht => exact ⟨coreStep_handOver hs (.inl rfl), coreStep_handOver ht (.inl rfl)⟩
  | finalText hs ht => exact ⟨coreStep_handOver hs (.inr rfl), coreStep_handOver ht (.inr rfl)⟩

/-- `s'` and `t'` have emitted the same bytes since `s` and `t`, and are at the same point. -/
def State.EmitAlike (s t s' t' : State) : Prop :=
  ∃ out, s'.txt = s.txt ++ out ∧ t'.txt = t.txt ++ out ∧ s'.SamePhase t'

theorem State.SameEmission.handOver (h : s.SameEmission t) (hq : s.txq = t.txq) :
    s.EmitAlike t (handOver s) (handOver t) := by
  match hl : s.txq with
  | [] =>
    have hs : Machine.handOver s = Machine.textDone s := by simp only [Machine.handOver, hl]
    have ht : Machine.handOver t = Machine.textDone t := by
      simp only [Machine.handOver, ← hq, hl]
    rw [hs, ht]
    exact ⟨[], by simp [textDone_txt], by simp [textDone_txt], h.textDone⟩
  | [b] =>
    rw [handOver_last hl, handOver_last (hq ▸ hl)]
    exact ⟨[b], textDone_txt _, textDone_txt _, (h.handByte b []).textDone⟩
  | b :: c :: l =>
    rw [handOver_more hl, handOver_more (hq ▸ hl)]
    exact ⟨[b], rfl, rfl, .emitting rfl (h.handByte b (c :: l))⟩

/-- One step of the core emits the same bytes from both states, and keeps them at the same point. -/
theorem State.SamePhase.coreStep (h : s.SamePhase t) :
    s.EmitAlike t (coreStep s) (coreStep t) := by
  cases h with
  | resting hs ht =>
    rw [coreStep_of_not_busy hs, coreStep_of_not_busy ht]
    exact ⟨[], by simp, by simp, .resting hs ht⟩
  | elementOne hs ht h =>
    rw [coreStep_elementOne hs, coreStep_elementOne ht]
    refine ⟨[], by simp [elementStep_txt], by simp [elementStep_txt], ?_⟩
    rcases h.elementStep .finalText with ⟨hs', ht'⟩ | ⟨line, hs', ht'⟩
    · exact .of_faulted hs' ht'
    · rw [hs', ht']
      exact .emitting rfl (.finalText rfl rfl)
  | elementRange hs ht h =>
    rw [coreStep_elementRange hs, coreStep_elementRange ht]
    refine ⟨[], by simp [elementStep_txt], by simp [elementStep_txt], ?_⟩
    rcases h.sameElement.elementStep .rangeLine with ⟨hs', ht'⟩ | ⟨line, hs', ht'⟩
    · exact .of_faulted hs' ht'
    · obtain ⟨h0, h1, hf, hi, hst, hle, hel⟩ := h
      rw [hs', ht']
      exact .emitting rfl (.rangeLine rfl rfl ⟨h0, h1, hf, hi, hst, hle, hel⟩)
  | emitting hq h =>
    obtain ⟨hs, ht⟩ := h.coreStep_eq
    rw [hs, ht]
    exact h.handOver hq

end SamePhase

/-! ### Runs of a quiet machine -/

/-- With nothing scheduled and no transfer to make, only the core moves. -/
theorem step_of_quiet {s : State} (h : s.quiet) : step s = .next (coreStep s) := by
  obtain ⟨hs, hh⟩ := h
  cases hr : s.run with
  | busy p => exact step_of_busy hs hr
  | _ =>
    rw [coreStep_of_not_busy (by simp [hr])]
    simp only [step, turn, hs, hr, defaultMove, takeMove, hostTurn, hh]

theorem textDone_quiet {s : State} (h : s.quiet) : (textDone s).quiet := by
  rcases textDone_cases s with he | he | he | he <;> rw [he] <;> exact h

theorem elementStep_quiet {s : State} (h : s.quiet) (p : Phase) : (elementStep s p).quiet := by
  rcases elementStep_cases s p with ⟨v, -, he⟩ | ⟨c, -, he | he⟩ <;> rw [he] <;> exact h

theorem handOver_quiet {s : State} (h : s.quiet) : (handOver s).quiet := by
  match hl : s.txq with
  | [] =>
    simp only [handOver, hl]
    exact textDone_quiet h
  | [b] =>
    rw [handOver_last hl]
    exact textDone_quiet (s := s.handByte b []) h
  | b :: c :: l =>
    rw [handOver_more hl]
    exact h

theorem coreStep_quiet {s : State} (h : s.quiet) : (coreStep s).quiet := by
  rcases coreStep_cases s with he | ⟨-, he⟩ | ⟨-, he⟩ | ⟨p, -, -, he⟩ <;> rw [he]
  · exact h
  · exact elementStep_quiet h _
  · exact elementStep_quiet h _
  · exact handOver_quiet h

/-- Runs from states at the same point of their commands emit the same bytes. -/
theorem runSteps_emitAlike {s t : State} (k : ℕ) (hs : s.quiet) (ht : t.quiet)
    (h : s.SamePhase t) : ∃ s' t', runSteps k s = .next s' ∧ runSteps k t = .next t' ∧
      s.EmitAlike t s' t' := by
  induction k generalizing s t with
  | zero => exact ⟨s, t, rfl, rfl, [], by simp, by simp, h⟩
  | succ k ih =>
    obtain ⟨out, hs1, ht1, hstep⟩ := h.coreStep
    obtain ⟨s', t', hs', ht', rest, hs2, ht2, hrest⟩ :=
      ih (coreStep_quiet hs) (coreStep_quiet ht) hstep
    refine ⟨s', t', ?_, ?_, out ++ rest, ?_, ?_, hrest⟩
    · rw [runSteps_succ k (step_of_quiet hs), hs']
    · rw [runSteps_succ k (step_of_quiet ht), ht']
    · rw [hs2, hs1, List.append_assoc]
    · rw [ht2, ht1, List.append_assoc]

/-! ### Acceptance on the same inputs -/

/-- The two states agree on everything the text of `i` may depend on (R132). -/
structure State.SameInputs (i : Instr) (s t : State) : Prop where
  registers : ∀ r ∈ sources i, s.x.get r = t.x.get r
  name0 : s.name0 = t.name0
  name1 : s.name1 = t.name1
  bytes : ∀ a, namesByte i s.x a → memByte s.mem a = memByte t.mem a

theorem exec_quiet {i : Instr} {s t : State} (hs : s.quiet) (h : exec i s = .next t) :
    t.quiet := by
  rcases exec_cases h with ⟨rd, v, rfl⟩ | ⟨f, rs1, -, rfl⟩ | ⟨f, rs1, rs2, -, rfl⟩ |
    ⟨f, rs1, rs2, rs3, -, -, rfl⟩ | ⟨f, rs1, rs2, rs3, -, -, rfl⟩ <;> exact hs

/-- Where the operands are the same, the named element is. -/
theorem State.SameInputs.relt_samePhase {f : QFormat} {rs1 rs2 : Reg} {s t : State}
    (h : s.SameInputs (.relt f rs1 rs2) t) :
    (s.loadElement f (s.getReg rs1) (s.getReg rs2)).SamePhase
      (t.loadElement f (t.getReg rs1) (t.getReg rs2)) := by
  have hbase : s.getReg rs1 = t.getReg rs1 := h.registers rs1 (by simp [sources])
  have hidx : s.getReg rs2 = t.getReg rs2 := h.registers rs2 (by simp [sources])
  have helem : elementAt s.mem f.w (s.getReg rs1) (s.getReg rs2) =
      elementAt t.mem f.w (s.getReg rs1) (s.getReg rs2) :=
    elementAt_congr fun k hk => h.bytes _ ⟨k, hk, rfl⟩
  rw [← hbase, ← hidx]
  exact .elementOne rfl rfl ⟨h.name0, h.name1, rfl, rfl, helem⟩

theorem exec_rrng_samePhase {f : QFormat} {rs1 rs2 rs3 : Reg} {s t : State}
    (h : s.SameInputs (.rrng f rs1 rs2 rs3) t) :
    ∃ s' t', exec (.rrng f rs1 rs2 rs3) s = .next s' ∧ exec (.rrng f rs1 rs2 rs3) t = .next t' ∧
      s'.SamePhase t' := by
  have hbase : s.getReg rs1 = t.getReg rs1 := h.registers rs1 (by simp [sources])
  have hstart : s.getReg rs2 = t.getReg rs2 := h.registers rs2 (by simp [sources])
  have hstop : s.getReg rs3 = t.getReg rs3 := h.registers rs3 (by simp [sources])
  rcases le_or_gt (s.getReg rs2).toNat (s.getReg rs3).toNat with hle | hlt
  · have helems : ∀ j : Word, (s.getReg rs2).toNat ≤ j.toNat → j.toNat ≤ (s.getReg rs3).toNat →
        elementAt s.mem f.w (s.getReg rs1) j = elementAt t.mem f.w (s.getReg rs1) j :=
      fun j hj hj' => elementAt_congr fun k hk => h.bytes _ ⟨j, hj, hj', k, hk, rfl⟩
    refine ⟨_, _, exec_rrng_of_le hle, exec_rrng_of_le (by rwa [← hstart, ← hstop]), ?_⟩
    rw [← hbase, ← hstart, ← hstop]
    exact .elementRange rfl rfl ⟨h.name0, h.name1, rfl, rfl, rfl, hle, helems⟩
  · exact ⟨_, _, exec_rrng_of_lt hlt, exec_rrng_of_lt (by rwa [← hstart, ← hstop]),
      .of_faulted rfl rfl⟩

/-- A command accepted in IDLE on the same inputs has the same text to emit. -/
theorem exec_samePhase {i : Instr} {s t : State} (hs : s.run = .idle) (ht : t.run = .idle)
    (h : s.SameInputs i t) :
    ∃ s' t', exec i s = .next s' ∧ exec i t = .next t' ∧ s'.SamePhase t' := by
  cases i with
  | rval f rs1 =>
    have hreg : s.getReg rs1 = t.getReg rs1 := h.registers rs1 (by simp [sources])
    exact ⟨_, _, rfl, rfl, .emitting (by simp [h.name0, h.name1, hreg]) (.finalText rfl rfl)⟩
  | relt f rs1 rs2 => exact ⟨_, _, rfl, rfl, h.relt_samePhase⟩
  | rrng f rs1 rs2 rs3 => exact exec_rrng_samePhase h
  | _ => exact ⟨_, _, rfl, rfl, .resting (by simp [hs]) (by simp [ht])⟩

/-- Settles O35: acceptance leaves both states at the same point, and the core keeps them there. -/
theorem emittedTextDependsOnInputsOnly : Obligations.EmittedTextDependsOnInputsOnly := by
  intro i k s t hs ht hrs hrt hreg h0 h1 hbytes
  obtain ⟨s', t', hxs, hxt, hphase⟩ := exec_samePhase hrs hrt ⟨hreg, h0, h1, hbytes⟩
  obtain ⟨u, v, hu, hv, out, hus, hvt, -⟩ :=
    runSteps_emitAlike k (exec_quiet hs hxs) (exec_quiet ht hxt) hphase
  obtain ⟨-, -, -, htxts, -⟩ := exec_frame hxs
  obtain ⟨-, -, -, htxtt, -⟩ := exec_frame hxt
  exact ⟨s', t', u, v, out, hxs, hxt, hu, hv, by rw [hus, htxts], by rw [hvt, htxtt]⟩

end Sys2Proof.Machine

/-! PROOFS. The exceptions: what a step from FAULTED can do (O41) and what fault entry leaves as it
was (O40); the two faults of decode (O9, O10). -/

namespace Sys2Proof

/-! ### The words decode refuses (R76) -/

theorem decode_eq_illegalCommand_iff_forall {c : Cmd} :
    decode c = .illegalCommand ↔ ∀ r ∈ opcodeRows, r.selects c = false := by
  obtain ⟨hrow, -⟩ := decodeFollowsMatchAndMask
  simpa using (hrow c).not

/-- The format is looked at once a row has been found. -/
theorem decode_eq_illegalFormat_iff {c : Cmd} : decode c = .illegalFormat ↔
    (∃ r ∈ opcodeRows, r.selects c = true) ∧ (formatOf c).bits - 1 < (formatOf c).frac := by
  rw [exists_selects_iff]
  constructor
  · intro h
    cases hrow : decodeRow c with
    | none => cases (decode_eq_illegalCommand_iff.2 hrow).symm.trans h
    | some i =>
      obtain rfl := encode_of_decodeRow hrow
      rw [decode_encode] at h
      split_ifs at h with hwf
      rw [formatOf_encode]
      exact ⟨⟨i, rfl⟩, not_le.1 fun hle => hwf (i.wf_iff.2 hle)⟩
  · rintro ⟨⟨i, rfl⟩, hn⟩
    rw [formatOf_encode] at hn
    rw [decode_encode, if_neg fun hwf => (i.wf_iff.1 hwf).not_gt hn]

theorem formatOf_valid_of_ws {c : Cmd} (h : wsOf c = 3) : (formatOf c).valid = true := by
  rw [formatOf, h]
  exact QFormat.valid_of_w64 (nOf c)

end Sys2Proof

namespace Sys2Proof.Machine

/-! ### The two faults of decode (R142, R143) -/

theorem hostWrite_cmd_illegalCommand {d : Word} (hd : decode (d.setWidth 32) = .illegalCommand)
    (s : State) :
    hostWrite 16 d s = .done ((s.latch (d.setWidth 32)).raise .illegalCommand 0) := by
  have hn : hostReg 16 = .cmd := rfl
  simp only [hostWrite, hn, acceptCommand, hd]

theorem hostWrite_cmd_illegalFormat {d : Word} (hd : decode (d.setWidth 32) = .illegalFormat)
    (s : State) :
    hostWrite 16 d s = .done ((s.latch (d.setWidth 32)).raise .illegalFormat 0) := by
  have hn : hostReg 16 = .cmd := rfl
  simp only [hostWrite, hn, acceptCommand, hd]

/-- Settles O9: decode refuses a word no row selects. -/
theorem illegalCommandFaults : Obligations.IllegalCommandFaults := by
  intro s d rest hm hr hh hrows
  have hd : decode (d.setWidth 32) = .illegalCommand := decode_eq_illegalCommand_iff_forall.2 hrows
  exact step_of_hostWrite_done hm hr hh (hostWrite_cmd_illegalCommand hd _)

/-- Settles O10: decode refuses the format before the operation is looked at, and no `n` exceeds 63. -/
theorem illegalFormatFaults : Obligations.IllegalFormatFaults := by
  refine ⟨fun s d rest hm hr hh hrow hn => ?_, fun c hws hd => ?_⟩
  · have hd : decode (d.setWidth 32) = .illegalFormat := decode_eq_illegalFormat_iff.2 ⟨hrow, hn⟩
    exact step_of_hostWrite_done hm hr hh (hostWrite_cmd_illegalFormat hd _)
  · have hvalid := (QFormat.valid_iff _).1 (formatOf_valid_of_ws hws)
    obtain ⟨-, hn⟩ := decode_eq_illegalFormat_iff.1 hd
    exact hvalid.not_gt hn

/-! ### The state a move is made on -/

/-- Everything a step can do, with the state less the move taken written out. -/
theorem step_cases_setSched {s t : State} (h : step s = .next t) :
    (s.mover = .core ∧ t = coreStep (s.setSched s.sched.tail)) ∨
    (s.mover = .host ∧ hostTurn (s.setSched s.sched.tail) = .done t) ∨
    (s.mover = .host ∧ ∃ i u, hostTurn (s.setSched s.sched.tail) = .run i u ∧
      exec i u = .next t) ∨
    (s.mover = .reset ∧ t = (s.setSched s.sched.tail).applyReset) ∨
    (∃ a b, s.mover = .poke a b ∧ t = (s.setSched s.sched.tail).poke a b) := by
  obtain ⟨s0, hs0, hmove⟩ := step_cases h
  have hs : s0 = s.setSched s.sched.tail := by
    rcases hs0 with ⟨hnil, rfl⟩ | ⟨m, ms, hcons, rfl⟩
    · rw [hnil, List.tail_nil, ← hnil]
      rfl
    · rw [hcons, List.tail_cons]
  exact hs ▸ hmove

/-! ### Steps from FAULTED (R151) -/

/-- Everything a step from FAULTED can do: reset, or a move that executes nothing. -/
theorem step_faulted_cases {s t : State} (hr : s.run = .faulted) (h : step s = .next t) :
    (s.mover = .reset ∧ t = (s.setSched s.sched.tail).applyReset) ∨
    (s.mover ≠ .reset ∧
      (t = s.setSched s.sched.tail ∨ t = (s.setSched s.sched.tail).hold ∨
       (∃ n v rest, t = ((s.setSched s.sched.tail).setHost rest).answer n v) ∨
       ∃ a b, t = (s.setSched s.sched.tail).poke a b)) := by
  have hidle : (s.setSched s.sched.tail).run ≠ .idle := by simp [hr]
  have hbusy : ∀ p, (s.setSched s.sched.tail).run ≠ .busy p := by simp [hr]
  rcases step_cases_setSched h with ⟨hm, rfl⟩ | ⟨hm, ht⟩ | ⟨-, i, u, hu, -⟩ | ⟨hm, rfl⟩ |
    ⟨a, b, hm, rfl⟩
  · exact .inr ⟨by simp [hm], .inl (coreStep_of_not_busy hbusy)⟩
  · refine .inr ⟨by simp [hm], ?_⟩
    rcases hostTurn_done_outside_idle hidle ht with rfl | rfl | hread
    · exact .inl rfl
    · exact .inr (.inl rfl)
    · exact .inr (.inr (.inl hread))
  · obtain ⟨n, d, rest, -, -, hrun, -, -⟩ := hostTurn_run_cases hu
    exact absurd hrun hidle
  · exact .inl ⟨hm, rfl⟩
  · exact .inr ⟨by simp [hm], .inr (.inr (.inr ⟨a, b, rfl⟩))⟩

/-- Settles O41, move by move. -/
theorem onlyResetLeavesFaulted : Obligations.OnlyResetLeavesFaulted := by
  intro s t hr hstep
  rcases step_faulted_cases hr hstep with ⟨hm, rfl⟩ | ⟨hm, ht⟩
  · exact ⟨fun hne => absurd hm hne, fun _ => ⟨rfl, rfl, rfl, rfl⟩⟩
  · refine ⟨fun _ => ?_, fun hreset => absurd hreset hm⟩
    rcases ht with rfl | rfl | ⟨n, v, rest, rfl⟩ | ⟨a, b, rfl⟩ <;>
      exact ⟨hr, rfl, rfl, rfl, rfl, rfl, rfl, rfl, rfl⟩

/-! ### Fault entry (R141, R149) -/

/-- The registers, the name, the text, the memory and the operands are as they were, and so is the
word of a running command: what fault entry leaves alone. -/
structure State.SameBeforeFault (s u : State) : Prop where
  x : u.x = s.x
  name0 : u.name0 = s.name0
  name1 : u.name1 = s.name1
  txt : u.txt = s.txt
  txq : u.txq = s.txq
  mem : u.mem = s.mem
  fmt : u.fmt = s.fmt
  base : u.base = s.base
  stop : u.stop = s.stop
  idx : u.idx = s.idx
  cmd : s.run ≠ .idle → u.cmd = s.cmd

/-- `t` is a fault entry by `raise`, from `s` or from a state that keeps these fields of `s`. -/
def State.Faults (s t : State) : Prop :=
  ∃ u c a, s.SameBeforeFault u ∧ t = u.raise c a

/-- `raise` is the only fault entry of the element step. -/
theorem elementStep_faults {s : State} {p : Phase} (h : (elementStep s p).run = .faulted) :
    s.Faults (elementStep s p) := by
  rcases elementStep_cases s p with ⟨v, -, hs⟩ | ⟨c, -, hs | hs⟩
  · rw [hs] at h
    cases h
  · exact ⟨s, c, _, ⟨rfl, rfl, rfl, rfl, rfl, rfl, rfl, rfl, rfl, rfl, fun _ => rfl⟩, hs⟩
  · exact ⟨s.logRead _ _, c, _, ⟨rfl, rfl, rfl, rfl, rfl, rfl, rfl, rfl, rfl, rfl, fun _ => rfl⟩, hs⟩

theorem textDone_run_ne_faulted {s : State} (h : s.run ≠ .faulted) :
    (textDone s).run ≠ .faulted := by
  rcases textDone_cases s with hs | hs | hs | hs <;> rw [hs]
  · exact h
  all_goals exact nofun

/-- Handing text over raises no fault. -/
theorem handOver_run_ne_faulted {s : State} (h : s.run ≠ .faulted) :
    (handOver s).run ≠ .faulted := by
  match hl : s.txq with
  | [] =>
    simp only [handOver, hl]
    exact textDone_run_ne_faulted h
  | [b] =>
    rw [handOver_last hl]
    exact textDone_run_ne_faulted (s := s.handByte b []) h
  | b :: c :: l =>
    rw [handOver_more hl]
    exact h

theorem coreStep_faults {s : State} (hs : s.run ≠ .faulted) (h : (coreStep s).run = .faulted) :
    s.Faults (coreStep s) := by
  rcases coreStep_cases s with he | ⟨-, he⟩ | ⟨-, he⟩ | ⟨p, -, -, he⟩ <;> rw [he] at h ⊢
  · exact absurd h hs
  · exact elementStep_faults h
  · exact elementStep_faults h
  · exact absurd h (handOver_run_ne_faulted hs)

/-- In IDLE the word of the command is the one being accepted. -/
theorem State.sameBeforeFault_accepted {s : State} (hr : s.run = .idle) (rest : List Transfer)
    (c : Cmd) : s.SameBeforeFault ((s.setHost rest).latch c) :=
  ⟨rfl, rfl, rfl, rfl, rfl, rfl, rfl, rfl, rfl, rfl, fun hne => absurd hr hne⟩

/-- Of the host's moves that execute no command, the write of a refused word faults. -/
theorem hostTurn_done_faults {s t : State} (hs : s.run ≠ .faulted) (h : hostTurn s = .done t)
    (ht : t.run = .faulted) : s.Faults t := by
  rcases hostTurn_done_cases h with ⟨-, rfl⟩ | ⟨n, rest, -, rfl⟩ | ⟨n, d, rest, -, hw⟩
  · exact absurd ht hs
  · exact absurd ht hs
  · rcases hw with ⟨-, rfl⟩ | ⟨hr, rfl | ⟨r, -, rfl⟩ | ⟨-, rfl⟩ | ⟨-, rfl⟩ | ⟨-, hc⟩⟩
    case inr.inr.inr.inr.inr =>
      rcases hc with ⟨-, rfl⟩ | ⟨-, rfl⟩ <;>
        exact ⟨_, _, _, State.sameBeforeFault_accepted hr rest _, rfl⟩
    all_goals exact absurd ht hs

/-- `RangeOrder` is the only fault of a command at its acceptance (R144). -/
theorem exec_eq_raise_of_faulted {i : Instr} {u t : State} (hu : u.run ≠ .faulted)
    (h : exec i u = .next t) (ht : t.run = .faulted) : t = u.raise .rangeOrder 0 := by
  rcases exec_cases h with ⟨rd, v, rfl⟩ | ⟨f, rs1, -, rfl⟩ | ⟨f, rs1, rs2, -, rfl⟩ |
    ⟨f, rs1, rs2, rs3, -, -, rfl⟩ | ⟨f, rs1, rs2, rs3, -, -, rfl⟩
  · exact absurd ht hu
  · cases ht
  · cases ht
  · rfl
  · cases ht

theorem hostTurn_run_faults {s t u : State} {i : Instr} (hu : hostTurn s = .run i u)
    (hx : exec i u = .next t) (ht : t.run = .faulted) : s.Faults t := by
  obtain ⟨n, d, rest, -, -, hr, -, rfl⟩ := hostTurn_run_cases hu
  have hne : ((s.setHost rest).latch (d.setWidth 32)).run ≠ .faulted := by simp [hr]
  exact ⟨_, _, _, State.sameBeforeFault_accepted hr rest _, exec_eq_raise_of_faulted hne hx ht⟩

/-- Whatever step enters FAULTED does so by `raise`. -/
theorem step_faults {s t : State} (hs : s.run ≠ .faulted) (hstep : step s = .next t)
    (ht : t.run = .faulted) : s.Faults t := by
  suffices hmove : (s.setSched s.sched.tail).Faults t by
    obtain ⟨u, c, a, ⟨hx, h0, h1, htxt, htxq, hmem, hf, hb, hst, hi, hc⟩, rfl⟩ := hmove
    exact ⟨u, c, a, ⟨hx, h0, h1, htxt, htxq, hmem, hf, hb, hst, hi, hc⟩, rfl⟩
  rcases step_cases_setSched hstep with ⟨-, rfl⟩ | ⟨-, hu⟩ | ⟨-, i, u, hu, hx⟩ | ⟨-, rfl⟩ |
    ⟨a, b, -, rfl⟩
  · exact coreStep_faults hs ht
  · exact hostTurn_done_faults hs hu ht
  · exact hostTurn_run_faults hu hx ht
  · cases ht
  · exact absurd ht hs

/-- The five causes, and the address 0 of the three that are no access (R141, R149). -/
theorem faultCode_faultAddr_cases (c : FaultCause) (a : Word) :
    (faultCode c = 1 ∧ faultAddr c a = 0) ∨ (faultCode c = 2 ∧ faultAddr c a = 0) ∨
    (faultCode c = 3 ∧ faultAddr c a = 0) ∨ faultCode c = 4 ∨ faultCode c = 5 := by
  cases c <;> simp [faultCode, faultAddr]

/-- Settles O40: every fault entry is a `raise`, which writes the record and the run state. -/
theorem faultEntryWritesOnlyTheRecord : Obligations.FaultEntryWritesOnlyTheRecord := by
  intro s t hs hstep ht
  obtain ⟨u, c, a, ⟨hx, h0, h1, htxt, htxq, hmem, hf, hb, hst, hi, hc⟩, rfl⟩ :=
    step_faults hs hstep ht
  exact ⟨hx, h0, h1, htxt, htxq, hmem, hf, hb, hst, hi, rfl, hc, faultCode_faultAddr_cases c a⟩

end Sys2Proof.Machine

/-! PROOFS. Reset and hazards: what reset clears (O42), the text it cuts short (O44), and that a
running command ends by itself (O51). -/

namespace Sys2Proof.Machine

/-! ### Scheduled moves -/

/-- A scheduled move that executes no command is the whole step. -/
theorem step_of_scheduled {s t : State} {m : Move} {ms : List Move} (hs : s.sched = m :: ms)
    (ht : takeMove m (s.setSched ms) = .done t) : step s = .next t := by
  simp only [step, turn, hs, ht]

/-- No agent resets by default: a reset is scheduled. -/
theorem sched_eq_of_mover_reset {s : State} (h : s.mover = .reset) :
    s.sched = .reset :: s.sched.tail := by
  cases hs : s.sched with
  | nil =>
    simp only [State.mover, hs] at h
    cases hr : s.run <;> rw [hr] at h <;> cases h
  | cons m ms =>
    simp only [State.mover, hs] at h
    rw [h, List.tail_cons]

theorem step_of_reset {s : State} (h : s.mover = .reset) :
    step s = .next (s.setSched s.sched.tail).applyReset :=
  step_of_scheduled (sched_eq_of_mover_reset h) rfl

/-! ### Reset (R171) -/

theorem applyReset_getReg (s : State) (r : Reg) : s.applyReset.x.get r = 0 := by
  cases r <;> rfl

/-- An IDLE machine nothing acts on stays as it is. -/
theorem step_of_idle_quiet {s : State} (hr : s.run = .idle) (h : s.quiet) : step s = .next s := by
  rw [step_of_quiet h, coreStep_of_not_busy (by simp [hr])]

/-- Settles O42: the one step is `applyReset`, whose state is IDLE. -/
theorem resetClearsTheCore : Obligations.ResetClearsTheCore := by
  intro s hm
  exact ⟨_, step_of_reset hm, rfl, statusWord_idle, applyReset_getReg _, rfl, rfl, rfl, rfl, rfl,
    rfl, rfl, rfl, fun hs hh => step_of_idle_quiet rfl ⟨hs, hh⟩⟩

/-! ### A reset during the last text of a command (R172) -/

/-- `l` is what the command still has to hand over: it runs while bytes are left, and is IDLE once
there are none. -/
def State.LastText (s : State) (l : List Byte) : Prop :=
  (s.run = .busy .finalText ∧ s.txq = l ∧ l ≠ []) ∨ (s.run = .idle ∧ l = [])

/-- One core step hands over the next byte, if one is left. -/
theorem coreStep_lastText {s : State} {l : List Byte} (h : s.LastText l) :
    (coreStep s).LastText l.tail ∧ (coreStep s).txt = s.txt ++ l.take 1 ∧
      (coreStep s).sched = s.sched := by
  rcases h with ⟨hr, hq, hl⟩ | ⟨hr, rfl⟩
  · rw [coreStep_handOver hr (.inr rfl)]
    match l with
    | [] => exact absurd rfl hl
    | [b] =>
      rw [handOver_last hq, textDone_final (s := s.handByte b []) hr]
      exact ⟨.inr ⟨rfl, rfl⟩, rfl, rfl⟩
    | b :: c :: l =>
      rw [handOver_more hq]
      exact ⟨.inl ⟨hr, rfl, List.cons_ne_nil c l⟩, rfl, rfl⟩
  · rw [coreStep_of_not_busy (by simp [hr])]
    exact ⟨.inr ⟨hr, rfl⟩, (List.append_nil _).symm, rfl⟩

/-- `j` scheduled core steps hand over the next `j` bytes, or all that are left. -/
theorem runSteps_lastText {s : State} {l : List Byte} {j : ℕ} {ms : List Move} (h : s.LastText l)
    (hs : s.sched = List.replicate j .core ++ ms) :
    ∃ t, runSteps j s = .next t ∧ t.txt = s.txt ++ l.take j ∧ t.sched = ms := by
  induction j generalizing s l with
  | zero => exact ⟨s, rfl, (List.append_nil _).symm, hs⟩
  | succ j ih =>
    obtain ⟨hnext, htxt, hsched⟩ :=
      coreStep_lastText (s := s.setSched (List.replicate j .core ++ ms)) h
    obtain ⟨t, hrun, ht, hms⟩ := ih hnext hsched
    refine ⟨t, (runSteps_succ j (step_of_scheduled hs rfl)).trans hrun, ?_, hms⟩
    rw [ht, htxt, List.append_assoc, Nat.add_comm j 1, List.take_add, List.drop_one]
    rfl

/-- Settles O44: the text handed over before the reset is kept by it, and nothing else is. -/
theorem resetCutsTheTextAtAnyByte : Obligations.ResetCutsTheTextAtAnyByte := by
  intro f rs1 s j _ hs
  obtain ⟨t, hrun, htxt, hsched⟩ := runSteps_lastText
    (s := s.startText (valueLine f s.name0 s.name1 (fixOperand f.w (s.getReg rs1))) .finalText)
    (.inl ⟨rfl, rfl, valueLine_ne_nil _ _ _ _⟩) hs
  have hreset : runSteps 1 t = .next (t.setSched []).applyReset :=
    runSteps_succ 0 (step_of_scheduled hsched rfl)
  exact ⟨_, _, rfl, (runSteps_add 1 hrun).trans hreset, htxt, rfl, rfl, applyReset_getReg _⟩

/-! ### A running command ends (R178) -/

/-- Within `n` steps the command has completed or faulted. -/
def State.EndsWithin (s : State) (n : ℕ) : Prop :=
  ∃ k t, k ≤ n ∧ runSteps k s = .next t ∧ (t.run = .idle ∨ t.run = .faulted)

theorem State.EndsWithin.mono {s : State} {m n : ℕ} (h : s.EndsWithin m) (hmn : m ≤ n) :
    s.EndsWithin n := by
  obtain ⟨k, t, hk, ht⟩ := h
  exact ⟨k, t, hk.trans hmn, ht⟩

/-- The steps to a state and the steps from it add up. -/
theorem State.EndsWithin.of_runSteps {s t : State} {j n : ℕ} (hrun : runSteps j s = .next t)
    (h : t.EndsWithin n) : s.EndsWithin (j + n) := by
  obtain ⟨k, u, hk, hu, hend⟩ := h
  exact ⟨j + k, u, Nat.add_le_add_left hk j, (runSteps_add k hrun).trans hu, hend⟩

/-- An element that cannot be read ends its command in the same step. -/
theorem endsWithin_of_elementAt_error {s : State} {p : Phase} {c : FaultCause}
    (hstep : step s = .next (elementStep s p))
    (hc : elementAt s.mem s.fmt.w s.base s.idx = .error c) : s.EndsWithin 1 := by
  obtain ⟨-, hfault, -⟩ := elementStep_record p hc
  exact ⟨1, _, le_rfl, runSteps_succ 0 hstep, .inr hfault⟩

section Running

variable {s : State} (hs : s.sched = [])
include hs

theorem endsWithin_finalText (hr : s.run = .busy .finalText) (hq : s.txq ≠ []) :
    s.EndsWithin s.txq.length :=
  ⟨_, _, le_rfl, runSteps_finalText hs hr hq, .inl rfl⟩

theorem endsWithin_elementOne (hr : s.run = .busy .elementOne) : s.EndsWithin 90 := by
  cases hv : elementAt s.mem s.fmt.w s.base s.idx with
  | ok v => exact ⟨90, _, le_rfl, runSteps_elementOne hs hr hv, .inl rfl⟩
  | error c =>
    have hstep := (step_of_busy hs hr).trans (congrArg _ (coreStep_elementOne hr))
    exact (endsWithin_of_elementAt_error hstep hv).mono (by decide)

/-- From the element step `k` indices below `STOP`, `k + 1` lines and the terminator remain. -/
theorem endsWithin_elementRange {k : ℕ} (hr : s.run = .busy .elementRange)
    (hk : s.idx.toNat + k = s.stop.toNat) : s.EndsWithin (90 * (k + 1) + 5) := by
  induction k generalizing s with
  | zero =>
    cases hv : elementAt s.mem s.fmt.w s.base s.idx with
    | ok v =>
      exact ⟨95, _, le_rfl, runSteps_rangeLine_of_eq hs hr hv (BitVec.eq_of_toNat_eq hk), .inl rfl⟩
    | error c =>
      exact (endsWithin_of_elementAt_error (step_of_elementRange hs hr) hv).mono (by decide)
  | succ k ih =>
    cases hv : elementAt s.mem s.fmt.w s.base s.idx with
    | ok v =>
      have hne : s.idx ≠ s.stop := fun he => by
        rw [he] at hk
        omega
      have hnext : (s.idx + 1).toNat + k = s.stop.toNat := by bv_omega
      have hrest := ih (s := (s.lineEmitted v).nextIndex) hs rfl hnext
      exact (hrest.of_runSteps (runSteps_rangeLine_of_ne hs hr hv hne)).mono (by omega)
    | error c =>
      exact (endsWithin_of_elementAt_error (step_of_elementRange hs hr) hv).mono (by omega)

/-- After the line in hand, the terminator or the elements up to `STOP` remain. -/
theorem endsWithin_rangeLine (hr : s.run = .busy .rangeLine) (hq : s.txq ≠ [])
    (hle : s.idx.toNat ≤ s.stop.toNat) :
    s.EndsWithin (s.txq.length + (90 * (s.stop.toNat - s.idx.toNat) + 5)) := by
  have hline := runSteps_handOver hs hr (.inl rfl) hq rfl
  let done := { s with txt := s.txt ++ s.txq, txq := [] }
  refine .of_runSteps hline ?_
  by_cases he : s.idx = s.stop
  · rw [textDone_range_end (s := done) hr he]
    exact (endsWithin_finalText (s := done.startText termLine .finalText) hs rfl
      (List.cons_ne_nil _ _)).mono (Nat.le_add_left _ _)
  · rw [textDone_range_next (s := done) hr he]
    have hnext : (s.idx + 1).toNat + (s.stop.toNat - s.idx.toNat - 1) = s.stop.toNat := by bv_omega
    have hlt : s.idx.toNat < s.stop.toNat := lt_of_le_of_ne hle (mt BitVec.eq_of_toNat_eq he)
    exact (endsWithin_elementRange (s := done.nextIndex) hs rfl hnext).mono (by omega)

end Running

/-- Settles O51, phase by phase. -/
theorem runningCommandTerminates : Obligations.RunningCommandTerminates := by
  intro s p hinv hs hr
  suffices h : s.EndsWithin (s.txq.length + 90 * (s.stop.toNat - s.idx.toNat + 1) + 100) from h
  have htext := hinv.text
  have hloop := hinv.loop
  simp only [State.textOk, State.loopOk, hr] at htext hloop
  cases p with
  | elementOne => exact (endsWithin_elementOne hs hr).mono (by omega)
  | elementRange =>
    obtain ⟨-, hle⟩ := hloop
    exact (endsWithin_elementRange hs hr (Nat.add_sub_cancel' hle)).mono (by omega)
  | rangeLine =>
    obtain ⟨-, hle⟩ := hloop
    exact (endsWithin_rangeLine hs hr htext hle).mono (by omega)
  | finalText => exact (endsWithin_finalText hs hr htext).mono (by omega)

end Sys2Proof.Machine
